-- ==== Sys2Proof/Word.lean ====
section
/-! DEFINITION. Word.lean: the widths the spec names, and the held-key snapshot. -/

namespace Sys2Proof

/-- A command word or a register word as the read port shows it (R21, R70). -/
abbrev Word := BitVec 32

/-- One byte of the framebuffer (R52). -/
abbrev Byte := BitVec 8

/-- A 5-bit channel: a hue, saturation, value, red, green or blue (R8 `CH`, R13). -/
abbrev Channel := BitVec 5

/-- A 16-bit pixel (R8 `PIXW`). -/
abbrev Pixel := BitVec 16

/-- The held-key snapshot of a KEYS or FRAME word: a key is `true` when it is held (R71). -/
structure Keys where
  up : Bool := false
  down : Bool := false
  left : Bool := false
  right : Bool := false
deriving DecidableEq, Repr

/-- No key held: `KEYS none` (R77, R78). -/
def Keys.none : Keys := {}

/-- The converter's answer: red, green and blue (R100). -/
structure Rgb where
  r : Channel
  g : Channel
  b : Channel
deriving DecidableEq, Repr

end Sys2Proof
end

