-- ==== Sys2Proof/Config.lean ====
section
/-! DEFINITION. Config.lean: the implementation parameters of R8, as a record, and the two open values of the spec
(the framebuffer's contents before anything is written, and VBLANK_BUDGET), as constants with no body. The values this
hardware has are `Sys2Proof.Machine.hsvfill` in Machine/Params.lean. -/

namespace Sys2Proof

/-- `SPAN_ROUNDING` (R8, R142). -/
inductive SpanRounding where
  | floor
  | ceil
deriving DecidableEq, Repr

/-- `FB_ENDIAN` (R8, R52). -/
inductive Endian where
  | little
  | big
deriving DecidableEq, Repr

/-- The parameters of R8. `CH` = 5, `PIXW` = 16 are the widths of Word.lean, `NHUE` = 32 is `nhue`. -/
structure Config where
  /-- `W`, pixels in a row -/
  width : Nat
  /-- `H`, rows -/
  height : Nat
  /-- `REGION_TAB[0..31]` -/
  regionTab : List Nat
  /-- `OFFSET_TAB[0..31]` -/
  offsetTab : List Nat
  /-- `PACK(r, g, b)` -/
  pack : Channel → Channel → Channel → Pixel
  /-- `SPAN_ROUNDING` -/
  spanRounding : SpanRounding
  /-- `FB_BASE`, the byte address of pixel (0, 0) -/
  fbBase : Nat
  /-- `FB_ENDIAN` -/
  fbEndian : Endian
  /-- `INIT_SAT` -/
  initSat : Channel
  /-- `INIT_VAL` -/
  initVal : Channel

/-- `NHUE` (R8): the hue levels, one conversion of a row build each. -/
def nhue : Nat := 32

/-- FREE VALUE (log 1). What a framebuffer byte that nothing has written since the last reset holds: R38 "any 16-bit
value per pixel, under no law". The first argument counts the resets, the second is the byte address. It has no body,
so no proof can see a value of it. -/
opaque Config.unwrittenByte : Nat → Nat → Byte

/-- `VBLANK_BUDGET` (R8, R195): left OPEN by the spec, so a constant with no body (log 8). No rule reads it. -/
opaque Config.vblankBudget : Nat

end Sys2Proof
end

