-- ==== Sys2Proof/Syntax.lean ====
section
/-! DEFINITION. Syntax.lean: the six commands of R72, one constructor for each row of spec/opcode_table.json. The
operands are the fields of the command word (R71); the pseudo-instruction NOP is `keys Keys.none` (R78). -/

namespace Sys2Proof

/-- A command of HSVFILL command interface 1 (R3, R72). -/
inductive Instr where
  /-- `CONV h, s, v` (R107) -/
  | conv (h s v : Channel)
  /-- `KEYS k` (R121) -/
  | keys (k : Keys)
  /-- `VWAIT` (R140) -/
  | vwait
  /-- `FILL` (R145) -/
  | fill
  /-- `REPL` (R146) -/
  | repl
  /-- `FRAME k` (R148) -/
  | frame (k : Keys)
deriving DecidableEq, Repr

end Sys2Proof
end

