-- ==== Sys2Proof/WellFormed.lean ====
section
/-! DEFINITION. WellFormed.lean: which commands and which configurations the model admits. -/

namespace Sys2Proof

/-- R71: every operand is 0..31. The 5-bit fields of `Instr` hold nothing else, so every command is well formed; the
ill-formed case, an operand above 31, exists only in the assembler's text (R77), where it is refused. -/
def Instr.wf : Instr → Bool
  | .conv h s v => decide (h.toNat ≤ 31 ∧ s.toNat ≤ 31 ∧ v.toNat ≤ 31)
  | .keys _ => true
  | .vwait => true
  | .fill => true
  | .repl => true
  | .frame _ => true

/-- The checks R8 and R54 ask for before a configuration is admitted: 32-entry tables, `REGION_TAB` entries 0 to 7,
`OFFSET_TAB` entries 0 to 5, `W >= 32`, `H >= 1`, an even `FB_BASE`. (That `PACK` gives a 16-bit value is its type; what
is not checked is log 9.) -/
def Config.legal (c : Config) : Bool :=
  c.regionTab.length == 32 && c.offsetTab.length == 32 &&
  c.regionTab.all (fun r => decide (r ≤ 7)) && c.offsetTab.all (fun o => decide (o ≤ 5)) &&
  decide (32 ≤ c.width) && decide (1 ≤ c.height) && c.fbBase % 2 == 0

/-- R8: "A configuration outside these ranges is refused." -/
def Config.admission (c : Config) : Option Config :=
  if c.legal then some c else none

end Sys2Proof
end

