-- ==== Sys2Proof/Decode.lean ====
section
/-! DEFINITION. Decode.lean: the command word's fields (R70, R71), the total decoder (R72 to R76), the opcode map as
rows of match and mask (R72), the encoder, and the host's view of the decoder. -/

namespace Sys2Proof

/-- Why a word is illegal: the causes R170 gives names to and raises. -/
inductive IllegalCause where
  /-- cause 1, "reserved opcode" (R73) -/
  | reservedOpcode
  /-- cause 2, "reserved bits set" (R74) -/
  | reservedBits
deriving DecidableEq, Repr

/-- The code STATUS.CAUSE records (R170). -/
def IllegalCause.code : IllegalCause → BitVec 2
  | .reservedOpcode => 1
  | .reservedBits => 2

/-- What an accepted word is (R75): one of the six commands, or illegal with a cause. -/
inductive Decoded where
  | command (i : Instr)
  | illegal (c : IllegalCause)
deriving DecidableEq, Repr

/-- `OP`, bits 3:0 of every format (R70). -/
def opField (w : Word) : BitVec 4 := w.extractLsb' 0 4
/-- `HUE`, bits 8:4 of format C. -/
def hueField (w : Word) : Channel := w.extractLsb' 4 5
/-- `S`, bits 13:9 of format C. -/
def satField (w : Word) : Channel := w.extractLsb' 9 5
/-- `V`, bits 18:14 of format C. -/
def valField (w : Word) : Channel := w.extractLsb' 14 5
/-- `RSV`, bits 31:19 of format C. -/
def rsvC (w : Word) : BitVec 13 := w.extractLsb' 19 13
/-- `KD`, `KU`, `KL`, `KR`: bits 7, 6, 5, 4 of format K. -/
def keysField (w : Word) : Keys :=
  { up := w.getLsbD 6, down := w.getLsbD 7, left := w.getLsbD 5, right := w.getLsbD 4 }
/-- `RSV`, bits 31:8 of format K. -/
def rsvK (w : Word) : BitVec 24 := w.extractLsb' 8 24
/-- `RSV`, bits 31:4 of format N. -/
def rsvN (w : Word) : BitVec 28 := w.extractLsb' 4 28

/-- A defined opcode whose reserved field is `rsv`: cause 2 unless it is zero (R74). -/
def unlessReserved {n : Nat} (rsv : BitVec n) (i : Instr) : Decoded :=
  if rsv = 0 then .command i else .illegal .reservedBits

/-- `decode` of R76, total on every word. -/
def decode (w : Word) : Decoded :=
  if opField w = 1 then unlessReserved (rsvC w) (.conv (hueField w) (satField w) (valField w))
  else if opField w = 2 then unlessReserved (rsvK w) (.keys (keysField w))
  else if opField w = 6 then unlessReserved (rsvK w) (.frame (keysField w))
  else if opField w = 3 then unlessReserved (rsvN w) .vwait
  else if opField w = 4 then unlessReserved (rsvN w) .fill
  else if opField w = 5 then unlessReserved (rsvN w) .repl
  else .illegal .reservedOpcode

/-- The command a decoded word names, if it names one. -/
def Decoded.instr? : Decoded → Option Instr
  | .command i => some i
  | .illegal _ => none

/-- A row of the opcode map (R72). -/
structure OpRow where
  mnemonic : String
  matchBits : Word
  mask : Word
deriving DecidableEq, Repr

/-- "A word w encodes the instruction of a row when `(w & mask) == match`" (R72). -/
def OpRow.covers (r : OpRow) (w : Word) : Bool := (w &&& r.mask) == r.matchBits

/-- The row of R72 a command stands in. -/
def Instr.row : Instr → OpRow
  | .conv _ _ _ => ⟨"CONV", 0x00000001, 0xFFF8000F⟩
  | .keys _ => ⟨"KEYS", 0x00000002, 0xFFFFFF0F⟩
  | .vwait => ⟨"VWAIT", 0x00000003, 0xFFFFFFFF⟩
  | .fill => ⟨"FILL", 0x00000004, 0xFFFFFFFF⟩
  | .repl => ⟨"REPL", 0x00000005, 0xFFFFFFFF⟩
  | .frame _ => ⟨"FRAME", 0x00000006, 0xFFFFFF0F⟩

/-- The opcode map of R72, its six rows in order. -/
def opcodeMap : List OpRow :=
  [Instr.row (.conv 0 0 0), Instr.row (.keys Keys.none), Instr.row .vwait, Instr.row .fill, Instr.row .repl,
   Instr.row (.frame Keys.none)]

/-- Bits 7:4 of format K: KD, KU, KL, KR (R70). -/
def keyBits (k : Keys) : BitVec 4 :=
  BitVec.ofBool k.down ++ BitVec.ofBool k.up ++ BitVec.ofBool k.left ++ BitVec.ofBool k.right

/-- The word of a command, its fields from bit 31 down as R70's formats list them. -/
def encode : Instr → Word
  | .conv h s v => 0#13 ++ v ++ s ++ h ++ 1#4
  | .keys k => 0#24 ++ keyBits k ++ 2#4
  | .vwait => 0#28 ++ 3#4
  | .fill => 0#28 ++ 4#4
  | .repl => 0#28 ++ 5#4
  | .frame k => 0#24 ++ keyBits k ++ 6#4

/-- The 32-bit word of a table row: its low `nbits` bits are `w`, the rest 0. A command is one word on a 32-bit port,
so it has no byte order (R53). -/
def tableWord (nbits w : Nat) : Word := BitVec.ofNat 32 (w % 2 ^ nbits)

/-- The command the decoder reads from a table row's bits. -/
def decodeTableWord (nbits w : Nat) : Option Instr :=
  if nbits ≤ 32 then (decode (tableWord nbits w)).instr? else none

end Sys2Proof
end

