-- ==== Sys2Proof/Machine/Params.lean ====
section
/-! DEFINITION. Machine/Params.lean: the values of R8's parameters for this hardware. -/

namespace Sys2Proof.Machine

/-- `REGION_TAB[h] = h div 6` (R34, R101). -/
def regionTable : List Nat := (List.range nhue).map (fun h => h / 6)

/-- `OFFSET_TAB[h] = h mod 6` (R34, R101). -/
def offsetTable : List Nat := (List.range nhue).map (fun h => h % 6)

/-- `PACK(r, g, b) = {1'b0, b[4:0], g[4:0], r[4:0]}` (R147). -/
def packBgr (r g b : Channel) : Pixel := 0#1 ++ b ++ g ++ r

/-- HSVFILL's configuration: the "value" column of R8. -/
def hsvfill : Config where
  width := 240
  height := 160
  regionTab := regionTable
  offsetTab := offsetTable
  pack := packBgr
  spanRounding := .floor
  fbBase := 0x06000000
  fbEndian := .little
  initSat := 0
  initVal := 0

end Sys2Proof.Machine
end

