-- ==== Sys2Proof/Machine/State.lean ====
section
/-! DEFINITION. Machine/State.lean: the state of the block (R25 to R38), the host's and the platform's side of its
input ports (R21, R40, R180), the outcomes' reasons, and the state after reset. -/

namespace Sys2Proof.Machine

/-- The hidden register PHASE (R25). -/
inductive Phase where
  /-- no operation in progress -/
  | idle
  /-- a VWAIT is waiting for a vblank event -/
  | wait
  /-- a FRAME has done step A and is waiting for a vblank event -/
  | waitFrame
deriving DecidableEq, Repr

/-- PHASE's code (R25). -/
def Phase.code : Phase → Nat
  | .idle => 0
  | .wait => 1
  | .waitFrame => 2

/-- What the host and the platform do on the input ports in one cycle of `clk` (R21, R180): assert `rst`, pulse
`vblank`, offer a further command word, drive a register index on `rd_addr`. A word offered stays offered until it is
accepted (R22). -/
structure EdgeInput where
  rst : Bool := false
  vblank : Bool := false
  offer : Option Word := none
  rdAddr : BitVec 2 := 0
deriving DecidableEq, Repr

/-- A rising edge at which nothing arrives. -/
def EdgeInput.quiet : EdgeInput := {}

/-- The framebuffer's bytes that have been written since the last reset, by byte address, addresses strictly rising
(log 1). An address not listed has no value here. -/
abbrev Memory := List Host.Cell

/-- The state of HSVFILL and of its input ports. -/
structure State where
  /-- PHASE (R25) -/
  phase : Phase
  /-- SAT (R26) -/
  sat : Channel
  /-- VAL (R26) -/
  val : Channel
  /-- RES, 15 bits: B in 14:10, G in 9:5, R in 4:0 (R28) -/
  res : BitVec 15
  /-- STATUS.ILL (R29) -/
  ill : Bool
  /-- STATUS.CAUSE (R29) -/
  cause : BitVec 2
  /-- ERRCMD (R30) -/
  errcmd : Word
  /-- FB, as bytes at `FB_BASE + 2*i` and `FB_BASE + 2*i + 1` (R35, R52) -/
  fb : Memory
  /-- the MODEL's own (log 1): how many resets there have been, so that each gives a new draw of FB's contents -/
  fbDraw : Nat
  /-- the words the host offers and the block has not accepted yet, oldest first (R22, R197, R40; log 2) -/
  offers : List Word
  /-- what arrives on the input ports at the coming rising edges, the next one first (R40; log 2) -/
  inputs : List EdgeInput
deriving DecidableEq, Repr

/-- Why the machine stops with a fault: never. R172: "No other synchronous error exists"; an illegal word is recorded
and the block goes on (R171, R173), and a wait without a vblank is stuck, "neither a fault nor final" (R178). -/
inductive Fault where
deriving DecidableEq, Repr

/-- Why the model has no meaning for a command. -/
inductive Refusal where
  /-- Raised by an arm of `exec` that has no meaning yet; safe, the run stops. No arm of this model raises it. -/
  | notModelled (mnemonic : String)
deriving DecidableEq, Repr

/-- The state after reset (R38, R190), with nothing on the input ports. FB is unspecified: nothing is listed. -/
def State.reset : State where
  phase := .idle
  sat := hsvfill.initSat
  val := hsvfill.initVal
  res := 0
  ill := false
  cause := 0
  errcmd := 0
  fb := []
  fbDraw := 0
  offers := []
  inputs := []

end Sys2Proof.Machine
end

