-- ==== Sys2Proof/Machine/Ops.lean ====
section
/-! DEFINITION. Machine/Ops.lean: the named operations over the framebuffer and the registers: reading and writing
bytes and pixels (R11, R50, R52), recording an illegal command (R171), and reset (R190). -/

namespace Sys2Proof.Machine

/-! ### The framebuffer as a list of bytes -/

/-- The canonical form: addresses strictly rising. An unlisted address has no value, so no entry can equal it. -/
abbrev Memory.wf (m : Memory) : Prop := m.Pairwise (fun a b => a.1 < b.1)

/-- The byte listed at an address. -/
def Memory.read? : Memory → Nat → Option Byte
  | [], _ => none
  | (b, v) :: m, a => if b = a then some v else Memory.read? m a

/-- Consecutive bytes as cells from an address on. -/
def cellsFrom : Nat → List Byte → Memory
  | _, [] => []
  | a, b :: bs => (a, b) :: cellsFrom (a + 1) bs

/-- Store consecutive bytes from address `a` on (R55: adjacent accesses may be one burst). -/
def Memory.writeBytes (m : Memory) (a : Nat) (bs : List Byte) : Memory :=
  m.filter (fun c => decide (c.1 < a)) ++ cellsFrom a bs ++ m.filter (fun c => decide (a + bs.length ≤ c.1))

/-- The bytes of a pixel, the one at the lower address first (R52). -/
def pixelBytes : Endian → Pixel → List Byte
  | .little, p => [p.extractLsb' 0 8, p.extractLsb' 8 8]
  | .big, p => [p.extractLsb' 8 8, p.extractLsb' 0 8]

/-- The pixel whose byte at the lower address is `b0` (R52). -/
def pixelOfBytes : Endian → Byte → Byte → Pixel
  | .little, b0, b1 => b1 ++ b0
  | .big, b0, b1 => b0 ++ b1

/-- The byte address of pixel index `i`: `FB_BASE + 2*i` (R50). -/
def fbAddr (c : Config) (i : Nat) : Nat := c.fbBase + 2 * i

/-- The first byte address after the framebuffer: `FB_BASE + 2*W*H` (R57). -/
def fbEnd (c : Config) : Nat := c.fbBase + 2 * (c.width * c.height)

/-- A byte of the framebuffer. One that nothing has written since the last reset is the free value (R38, log 1). -/
def State.byteAt (s : State) (a : Nat) : Byte := (s.fb.read? a).getD (Config.unwrittenByte s.fbDraw a)

/-- `MemRead(a, 2)` (R11). -/
def State.memRead (s : State) (a : Nat) : Pixel :=
  pixelOfBytes hsvfill.fbEndian (s.byteAt a) (s.byteAt (a + 1))

/-- `MemWrite(a, 2, v)` (R11). -/
def State.memWrite (s : State) (a : Nat) (v : Pixel) : State :=
  { s with fb := s.fb.writeBytes a (pixelBytes hsvfill.fbEndian v) }

/-- `FB[i]` (R11, R35). -/
def State.pixelAt (s : State) (i : Nat) : Pixel := s.memRead (fbAddr hsvfill i)

/-- `FB[i], FB[i+1], … <- ps`: the pixels `ps` from pixel index `i` on. -/
def State.writePixels (s : State) (i : Nat) (ps : List Pixel) : State :=
  { s with fb := s.fb.writeBytes (fbAddr hsvfill i) (ps.flatMap (pixelBytes hsvfill.fbEndian)) }

/-! ### The one exception: an illegal command -/

/-- `raise IllegalCommand(cause, w)` (R171). There is no handler to go to and no return from one (R173, R174): the
first error is recorded and the block goes on with the next command (log 10). -/
def State.raiseIllegal (s : State) (c : IllegalCause) (w : Word) : State :=
  if s.ill then s else { s with ill := true, cause := c.code, errcmd := w }

/-! ### Reset -/

/-- A rising edge with `rst = 1` (R190): every register takes its value of R38, a wait is abandoned, and FB is
unspecified again, a new draw (log 3). The host's and the platform's side of the ports is not the block's to reset
(log 11). -/
def State.resetEdge (s : State) : State :=
  { State.reset with fbDraw := s.fbDraw + 1, offers := s.offers, inputs := s.inputs }

end Sys2Proof.Machine
end

