-- ==== Sys2Proof/Machine/Operands.lean ====
section
/-! DEFINITION. Machine/Operands.lean: the operands of the commands beside the word's own fields: the inverted
interaction state (R143), the spans of the hue steps (R142) and the pixel index of a column and row (R11). -/

namespace Sys2Proof.Machine

/-- `31 - x` on a 5-bit register (R143). -/
def inverted (x : Channel) : Channel := 31#5 - x

/-- `start(k)`: the first column of hue step `k` (R142). -/
def spanStart (c : Config) (k : Nat) : Nat :=
  match c.spanRounding with
  | .floor => k * c.width / 32
  | .ceil => (k * c.width + 31) / 32

/-- The columns hue step `k` writes. -/
def spanWidth (c : Config) (k : Nat) : Nat := spanStart c (k + 1) - spanStart c k

/-- `kx(x)`: the hue step column `x` belongs to (R142). -/
def hueOfColumn (c : Config) (x : Nat) : Nat :=
  match c.spanRounding with
  | .floor => (32 * (x + 1) - 1) / c.width
  | .ceil => 32 * x / c.width

/-- The pixel index of column `x` of row `y`: `y*W + x` (R11). -/
def pixelIndex (c : Config) (x y : Nat) : Nat := y * c.width + x

end Sys2Proof.Machine
end

