-- ==== Sys2Proof/Machine/Converter.lean ====
section
/-! DEFINITION. Machine/Converter.lean: the ColorConverter `convert` (R100 to R106) and the command CONV (R107). The
arithmetic is exact, on the naturals (R10); R108 bounds every value. -/

namespace Sys2Proof.Machine

/-- `REGION_TAB[h]` (R101). -/
def regionOf (c : Config) (h : Channel) : Nat := c.regionTab.getD h.toNat 0

/-- `offset = 6*OFFSET_TAB[h]` (R101). -/
def offsetOf (c : Config) (h : Channel) : Nat := 6 * c.offsetTab.getD h.toNat 0

/-- `p = (v*(31 - s)) >> 5` (R102). -/
def interP (s v : Nat) : Nat := (v * (31 - s)) / 32

/-- `q = (v*(31 - ((s*offset) >> 5))) >> 5` (R102). -/
def interQ (s v offset : Nat) : Nat := (v * (31 - (s * offset) / 32)) / 32

/-- `t = (v*(31 - ((s*(31 - offset)) >> 5))) >> 5` (R102). -/
def interT (s v offset : Nat) : Nat := (v * (31 - (s * (31 - offset)) / 32)) / 32

/-- The selection of (r, g, b) from {v, p, q, t} by region (R104); 5, 6 and 7 are the default row. -/
def selectRgb (region : Nat) (v p q t : Channel) : Rgb :=
  match region with
  | 0 => ⟨v, t, p⟩
  | 1 => ⟨q, v, p⟩
  | 2 => ⟨p, v, t⟩
  | 3 => ⟨p, q, v⟩
  | 4 => ⟨t, p, v⟩
  | _ => ⟨v, p, q⟩

/-- `convert(h, s, v)` (R106). -/
def convert (c : Config) (h s v : Channel) : Rgb :=
  if s = 0 then ⟨v, v, v⟩
  else
    selectRgb (regionOf c h) v
      (BitVec.ofNat 5 (interP s.toNat v.toNat))
      (BitVec.ofNat 5 (interQ s.toNat v.toNat (offsetOf c h)))
      (BitVec.ofNat 5 (interT s.toNat v.toNat (offsetOf c h)))

/-- The RES value of a triple (R28, R107). -/
def resOf (x : Rgb) : BitVec 15 := x.b ++ x.g ++ x.r

/-- CONV (R107): RES alone is written. -/
def execConv (h s v : Channel) (st : State) : Host.Outcome State Fault Refusal :=
  .next { st with res := resOf (convert hsvfill h s v) }

end Sys2Proof.Machine
end

