-- ==== Sys2Proof/Machine/Interaction.lean ====
section
/-! DEFINITION. Machine/Interaction.lean: the interaction-state update (R122) and the command KEYS (R121). -/

namespace Sys2Proof.Machine

/-- `+ 1`, held at 31 (R122, R124). -/
def bumpUp (x : Channel) : Channel := if x.toNat < 31 then x + 1 else x

/-- `- 1`, held at 0 (R122, R124). -/
def bumpDown (x : Channel) : Channel := if 0 < x.toNat then x - 1 else x

/-- `update(SAT, VAL, up, down, left, right)` (R122). The held key of highest priority alone selects the branch, and
the bound test sits inside it (R123). -/
def update (sat val : Channel) (k : Keys) : Channel × Channel :=
  if k.up then (bumpUp sat, val)
  else if k.down then (bumpDown sat, val)
  else if k.left then (sat, bumpDown val)
  else if k.right then (sat, bumpUp val)
  else (sat, val)

/-- `(SAT, VAL) <- update(SAT, VAL, k)`, shared by KEYS and FRAME's step A. -/
def State.applyKeys (s : State) (k : Keys) : State :=
  { s with sat := (update s.sat s.val k).1, val := (update s.sat s.val k).2 }

/-- KEYS (R121). -/
def execKeys (k : Keys) (s : State) : Host.Outcome State Fault Refusal :=
  .next (s.applyKeys k)

end Sys2Proof.Machine
end

