-- ==== Sys2Proof/Machine/Render.lean ====
section
/-! DEFINITION. Machine/Render.lean: the frame render stage: VWAIT (R140), FILL (R145), REPL (R146), FRAME (R148) and
what a vblank event does (R176). -/

namespace Sys2Proof.Machine

/-- `pix(k) = PACK(convert(k, 31 - SAT, 31 - VAL))` (R144). -/
def pix (c : Config) (sat val : Channel) (k : Nat) : Pixel :=
  let x := convert c (BitVec.ofNat 5 k) (inverted sat) (inverted val)
  c.pack x.r x.g x.b

/-- Row 0 as FILL builds it: hue steps 0 to 31 in order, each over its span (R145). -/
def rowPixels (c : Config) (sat val : Channel) : List Pixel :=
  (List.range nhue).flatMap (fun k => List.replicate (spanWidth c k) (pix c sat val k))

/-- The body of FILL (R145): row 0, from SAT and VAL. -/
def State.fillBody (s : State) : State := s.writePixels 0 (rowPixels hsvfill s.sat s.val)

/-- Row 0 of the framebuffer as REPL reads it (R146). -/
def State.rowZero (s : State) : List Pixel := (List.range hsvfill.width).map s.pixelAt

/-- The body of REPL (R146): row 0 into rows 1 to H-1. -/
def State.replBody (s : State) : State :=
  s.writePixels hsvfill.width (List.replicate (hsvfill.height - 1) s.rowZero).flatten

/-- VWAIT, at acceptance (R140). -/
def execVwait (s : State) : Host.Outcome State Fault Refusal :=
  .next { s with phase := .wait }

/-- FILL (R145). -/
def execFill (s : State) : Host.Outcome State Fault Refusal :=
  .next s.fillBody

/-- REPL (R146). -/
def execRepl (s : State) : Host.Outcome State Fault Refusal :=
  .next s.replBody

/-- FRAME's step A, at acceptance (R148); step B is the vblank event's. -/
def execFrame (k : Keys) (s : State) : Host.Outcome State Fault Refusal :=
  .next { s.applyKeys k with phase := .waitFrame }

/-- A vblank event (R176): it ends VWAIT's wait, performs step B of FRAME (R148), and changes nothing while IDLE. -/
def State.vblankEvent (s : State) : State :=
  match s.phase with
  | .idle => s
  | .wait => { s with phase := .idle }
  | .waitFrame => { s.fillBody.replBody with phase := .idle }

end Sys2Proof.Machine
end

