-- ==== Sys2Proof/Machine/Dispatch.lean ====
section
/-! DEFINITION. Machine/Dispatch.lean: `exec`, what an accepted command does, one arm for each command. -/

namespace Sys2Proof.Machine

def exec (i : Instr) (s : State) : Host.Outcome State Fault Refusal :=
  match i with
  | .conv h sv v => Sys2Proof.Machine.execConv h sv v s
  | .keys k => Sys2Proof.Machine.execKeys k s
  | .vwait => Sys2Proof.Machine.execVwait s
  | .fill => Sys2Proof.Machine.execFill s
  | .repl => Sys2Proof.Machine.execRepl s
  | .frame k => Sys2Proof.Machine.execFrame k s

end Sys2Proof.Machine
end

