-- ==== Sys2Proof/Machine/Flags.lean ====
section
/-! DEFINITION. Machine/Flags.lean: HSVFILL has no condition flags (R36). This file holds the STATUS fields that follow
from PHASE (R29) and the four registers as the read port shows them (R23, R28 to R32). -/

namespace Sys2Proof.Machine

/-- STATUS.BUSY: every operation is one step, so the block is busy exactly while it waits (R29). -/
def State.busy (s : State) : Bool := s.phase != .idle

/-- STATUS.WAITING (R29). -/
def State.waiting (s : State) : Bool := s.phase == .wait || s.phase == .waitFrame

/-- STATUS.FRAME_PENDING (R29). -/
def State.framePending (s : State) : Bool := s.phase == .waitFrame

/-- STATUS with a given BUSY, from bit 31 down: 0, FRAME_PENDING, CAUSE, ILL, WAITING, BUSY (R29). -/
def State.statusWith (s : State) (busy : Bool) : Word :=
  0#26 ++ BitVec.ofBool s.framePending ++ s.cause ++ BitVec.ofBool s.ill ++ BitVec.ofBool s.waiting
    ++ BitVec.ofBool busy

/-- STATUS between operations (R29). What it shows while one is in progress is `State.rdDataDuring`. -/
def State.statusWord (s : State) : Word := s.statusWith s.busy

/-- SV: VAL in 12:8, SAT in 4:0 (R31). -/
def State.svWord (s : State) : Word := 0#19 ++ s.val ++ 0#3 ++ s.sat

/-- RES zero-extended (R23, R28). -/
def State.resWord (s : State) : Word := 0#17 ++ s.res

/-- `rd_data` for `rd_addr = a` (R23, R32). It is a function of the state: a read changes nothing. -/
def State.rdData (s : State) (a : BitVec 2) : Word :=
  if a = 0 then s.statusWord
  else if a = 1 then s.svWord
  else if a = 2 then s.resWord
  else s.errcmd

/-- `cmd_ready` in a cycle with this `rst` (R22). -/
def State.cmdReady (s : State) (rst : Bool) : Bool := s.phase == .idle && !rst

end Sys2Proof.Machine
end

