-- ==== Sys2Proof/Machine/Sequencer.lean ====
section
/-! DEFINITION. Machine/Sequencer.lean: one rising edge of `clk` for the FrameRenderer sequencer: taking what arrives
on the input ports, accepting a command (R22), and the priority of simultaneous events (R177). -/

namespace Sys2Proof.Machine

/-- What arrives at the coming edge; when the list has run out, nothing arrives any more (log 2). -/
def State.edge (s : State) : EdgeInput := s.inputs.headD EdgeInput.quiet

/-- The state with the coming edge's inputs taken: the edge is used up, and a word the host newly offers stands behind
the words it still holds (R22, R197). -/
def State.latch (s : State) : State :=
  { s with inputs := s.inputs.tail, offers := s.offers ++ s.edge.offer.toList }

/-- Accept a word (R22): perform the command it encodes, or record it as illegal (R73, R74, R171). -/
def State.acceptWord (s : State) (w : Word) : Host.Outcome State Fault Refusal :=
  match decode w with
  | .command i => exec i s
  | .illegal c => .next (s.raiseIllegal c w)

/-- One rising edge (R177): `rst` overrides everything; a waiting block accepts no command and its wait ends if
`vblank` is pulsed; an idle block ignores `vblank` and accepts the oldest word offered. -/
def State.clockEdge (s : State) : Host.Outcome State Fault Refusal :=
  if s.edge.rst then .next s.latch.resetEdge
  else if s.phase = .idle then
    match s.latch.offers with
    | [] => .next s.latch
    | w :: ws => State.acceptWord { s.latch with offers := ws } w
  else if s.edge.vblank then .next s.latch.vblankEvent
  else .next s.latch

/-- The state with word `w` at the head of the words the host offers, an IDLE block and a quiet edge coming: what it
takes for the very next edge to accept `w` (log 4). -/
def State.withOffer (s : State) (w : Word) : State :=
  { s with phase := .idle, offers := w :: s.offers, inputs := EdgeInput.quiet :: s.inputs }

end Sys2Proof.Machine
end

