-- ==== Sys2Proof/Machine/Step.lean ====
section
/-! DEFINITION. Machine/Step.lean: the step, one rising edge of `clk`, and how the host places a command for it. -/

namespace Sys2Proof.Machine

/-- One step of the machine: one rising edge of `clk` (R21, R22, R177). -/
def step (s : State) : Host.Outcome State Fault Refusal := s.clockEdge

/-- `s` with a table row's word offered, so that the next step accepts it. -/
def State.withFetchWord (s : State) (nbits w : Nat) : State := s.withOffer (tableWord nbits w)

end Sys2Proof.Machine
end

