-- ==== Sys2Proof/Machine/Assembler.lean ====
section
/-! DEFINITION. Machine/Assembler.lean: the spec's own assembler syntax (R77, R78): one command a line, as a data type,
the word each line assembles to, and the reading of a line's characters. -/

namespace Sys2Proof.Machine

/-- The names a key list joins with `|` (R77). -/
inductive KeyName where
  | up
  | down
  | left
  | right
deriving DecidableEq, Repr

/-- `up` 0x40, `down` 0x80, `left` 0x20, `right` 0x10 (R77). -/
def KeyName.bit : KeyName → Nat
  | .up => 0x40
  | .down => 0x80
  | .left => 0x20
  | .right => 0x10

/-- `keybits`: the OR of the named keys' bits (R77). -/
def keybitsOf (ks : List KeyName) : Nat := ks.foldr (fun k n => k.bit ||| n) 0

/-- One line of assembler text (R77, R78). `KEYS none` and `KEYS` alone are `keys []`. -/
inductive AsmLine where
  | conv (h s v : Nat)
  | keys (ks : List KeyName)
  | vwait
  | fill
  | repl
  | frame (ks : List KeyName)
  | nop
  | word (w : Word)
deriving DecidableEq, Repr

/-- R77: the operands of `CONV` are 0..31. -/
def AsmLine.wf : AsmLine → Bool
  | .conv h s v => decide (h ≤ 31 ∧ s ≤ 31 ∧ v ≤ 31)
  | .keys _ => true
  | .vwait => true
  | .fill => true
  | .repl => true
  | .frame _ => true
  | .nop => true
  | .word _ => true

/-- The word a line's fields give (R77, R78). -/
def AsmLine.bits : AsmLine → Word
  | .conv h s v => BitVec.ofNat 32 (0x1 ||| (h <<< 4) ||| (s <<< 9) ||| (v <<< 14))
  | .keys ks => BitVec.ofNat 32 (0x2 ||| keybitsOf ks)
  | .vwait => 0x3
  | .fill => 0x4
  | .repl => 0x5
  | .frame ks => BitVec.ofNat 32 (0x6 ||| keybitsOf ks)
  | .nop => 0x2
  | .word w => w

/-- Assemble a line: "A value outside 0..31 is an assembly error, not a truncation" (R77, R110). -/
def assemble (l : AsmLine) : Option Word := if l.wf then some l.bits else none

/-! ### Reading a line's characters (R77; what separates words is log 7) -/

/-- A token of a line. -/
inductive Token where
  | word (cs : List Char)
  | comma
  | bar
deriving DecidableEq, Repr

/-- The word read so far, if there is one, in front of the tokens after it. -/
def flushWord (acc : List Char) (ts : List Token) : List Token :=
  if acc = [] then ts else .word acc.reverse :: ts

/-- The tokens of a line; `#` starts a comment. -/
def lexLine : List Char → List Char → List Token
  | acc, [] => flushWord acc []
  | acc, c :: cs =>
    if c = '#' then flushWord acc []
    else if c = ',' then flushWord acc (.comma :: lexLine [] cs)
    else if c = '|' then flushWord acc (.bar :: lexLine [] cs)
    else if c = ' ' ∨ c = '\t' then flushWord acc (lexLine [] cs)
    else lexLine (c :: acc) cs

/-- A digit in base `base` (10 or 16). -/
def digitOf (base : Nat) (c : Char) : Option Nat :=
  let d :=
    if '0'.toNat ≤ c.toNat ∧ c.toNat ≤ '9'.toNat then c.toNat - '0'.toNat
    else if 'a'.toNat ≤ c.toNat ∧ c.toNat ≤ 'f'.toNat then c.toNat - 'a'.toNat + 10
    else if 'A'.toNat ≤ c.toNat ∧ c.toNat ≤ 'F'.toNat then c.toNat - 'A'.toNat + 10
    else base
  if d < base then some d else none

/-- Digits in base `base`, the most significant first, after those already read. -/
def digitsFrom (base : Nat) : Nat → List Char → Option Nat
  | n, [] => some n
  | n, c :: cs => (digitOf base c).bind (fun d => digitsFrom base (n * base + d) cs)

/-- A decimal or `0x` number (R77). -/
def numberOf : List Char → Option Nat
  | [] => none
  | ['0', 'x'] => none
  | '0' :: 'x' :: ds => digitsFrom 16 0 ds
  | ds => digitsFrom 10 0 ds

/-- `0xNNNNNNNN`: eight hexadecimal digits (R77 `.word`). -/
def wordOf : List Char → Option Word
  | '0' :: 'x' :: ds => if ds.length = 8 then (digitsFrom 16 0 ds).map (BitVec.ofNat 32) else none
  | _ => none

/-- A key's name. -/
def keyNameOf (cs : List Char) : Option KeyName :=
  if cs = ['u', 'p'] then some .up
  else if cs = ['d', 'o', 'w', 'n'] then some .down
  else if cs = ['l', 'e', 'f', 't'] then some .left
  else if cs = ['r', 'i', 'g', 'h', 't'] then some .right
  else none

/-- Key names joined by `|`. -/
def keyListOf : List Token → Option (List KeyName)
  | [.word k] => (keyNameOf k).map (fun n => [n])
  | .word k :: .bar :: ts => (keyNameOf k).bind (fun n => (keyListOf ts).map (fun ns => n :: ns))
  | _ => none

/-- The operand of KEYS or FRAME: absent, `none`, or a key list (R77). -/
def keysOperand (ts : List Token) : Option (List KeyName) :=
  if ts = [] ∨ ts = [.word ['n', 'o', 'n', 'e']] then some [] else keyListOf ts

/-- The operands of CONV: three numbers separated by commas (R77). -/
def convOperands : List Token → Option AsmLine
  | [.word h, .comma, .word s, .comma, .word v] =>
    (numberOf h).bind (fun h => (numberOf s).bind (fun s => (numberOf v).map (fun v => .conv h s v)))
  | _ => none

/-- A command's name and its operands. -/
def commandLine (m : List Char) (ts : List Token) : Option AsmLine :=
  if m = ['C', 'O', 'N', 'V'] then convOperands ts
  else if m = ['K', 'E', 'Y', 'S'] then (keysOperand ts).map .keys
  else if m = ['F', 'R', 'A', 'M', 'E'] then (keysOperand ts).map .frame
  else if m = ['V', 'W', 'A', 'I', 'T'] ∧ ts = [] then some .vwait
  else if m = ['F', 'I', 'L', 'L'] ∧ ts = [] then some .fill
  else if m = ['R', 'E', 'P', 'L'] ∧ ts = [] then some .repl
  else if m = ['N', 'O', 'P'] ∧ ts = [] then some .nop
  else if m = ['.', 'w', 'o', 'r', 'd'] then
    match ts with
    | [.word w] => (wordOf w).map .word
    | _ => none
  else none

/-- A line's tokens: no command at all, or one command. `none` is an assembly error. -/
def parseTokens : List Token → Option (Option AsmLine)
  | [] => some none
  | .word m :: ts => (commandLine m ts).map some
  | _ => none

/-- Read one line of text. -/
def parseLine (cs : List Char) : Option (Option AsmLine) := parseTokens (lexLine [] cs)

/-! ### The text of operands, as R77 writes it -/

/-- A number in decimal. -/
def decimalText (n : Nat) : List Char := Nat.toDigits 10 n

/-- A number with `0x`. -/
def hexText (n : Nat) : List Char := '0' :: 'x' :: Nat.toDigits 16 n

/-- `0xNNNNNNNN`: the eight hexadecimal digits of a word. -/
def wordText (w : Word) : List Char :=
  '0' :: 'x' :: (List.range 8).map (fun i => Nat.digitChar (w.toNat / 16 ^ (7 - i) % 16))

/-- A key's name. -/
def KeyName.text : KeyName → List Char
  | .up => ['u', 'p']
  | .down => ['d', 'o', 'w', 'n']
  | .left => ['l', 'e', 'f', 't']
  | .right => ['r', 'i', 'g', 'h', 't']

/-- `none`, or the keys' names joined by `|`. -/
def keyListText : List KeyName → List Char
  | [] => ['n', 'o', 'n', 'e']
  | [k] => k.text
  | k :: ks => k.text ++ '|' :: keyListText ks

end Sys2Proof.Machine
end

