-- ==== Sys2Proof/Machine/Accesses.lean ====
section
/-! DEFINITION. Machine/Accesses.lean: the block's side of the `fb_*` ports and of the read port in one cycle. FILL and
REPL as R145 and R146 spell them, one `MemRead` or `MemWrite` at a time, are here as `fillLoop` and `replLoop`; the
meanings in Machine/Render.lean do the same in one burst (R55, log 5). -/

namespace Sys2Proof.Machine

/-- One framebuffer access: a write drives `fb_we`, `fb_addr` and `fb_wdata`; a read drives `fb_re` and `fb_addr` and
takes `fb_rdata` (R21, R50). `data` is the pixel on `fb_wdata` or `fb_rdata`. -/
structure FbAccess where
  write : Bool
  addr : Nat
  data : Pixel
deriving DecidableEq, Repr

/-- `fb_addr`, 32 bits (R21; log 9). -/
def FbAccess.fbAddrPort (a : FbAccess) : Word := BitVec.ofNat 32 a.addr

/-- The columns of row 0 and the pixels FILL gives them, in the order of R145's two loops. -/
def fillWrites (c : Config) (sat val : Channel) : List (Nat × Pixel) :=
  (List.range nhue).flatMap (fun k =>
    (List.range (spanWidth c k)).map (fun j => (spanStart c k + j, pix c sat val k)))

/-- FILL's loops (R145), one MemWrite at a time. -/
def State.fillLoop (s : State) : State :=
  (fillWrites hsvfill s.sat s.val).foldl (fun t w => t.memWrite (fbAddr hsvfill w.1) w.2) s

/-- The (column, row) pairs of REPL's two loops (R146), in order. -/
def replTargets (c : Config) : List (Nat × Nat) :=
  (List.range (c.height - 1)).flatMap (fun j => (List.range c.width).map (fun x => (x, j + 1)))

/-- One pass of REPL's inner loop body (R146). -/
def State.replPass (t : State) (xy : Nat × Nat) : State :=
  t.memWrite (fbAddr hsvfill (pixelIndex hsvfill xy.1 xy.2)) (t.memRead (fbAddr hsvfill xy.1))

/-- REPL's loops (R146), one MemRead and one MemWrite at a time. -/
def State.replLoop (s : State) : State := (replTargets hsvfill).foldl State.replPass s

/-- FILL's accesses, in order (R145). -/
def State.fillAccesses (s : State) : List FbAccess :=
  (fillWrites hsvfill s.sat s.val).map (fun w => ⟨true, fbAddr hsvfill w.1, w.2⟩)

/-- REPL's accesses, in order (R146): each pixel of row 0 is read before each of its copies is written. -/
def State.replAccesses (s : State) : List FbAccess :=
  (replTargets hsvfill).flatMap (fun xy =>
    [⟨false, fbAddr hsvfill xy.1, s.pixelAt xy.1⟩,
     ⟨true, fbAddr hsvfill (pixelIndex hsvfill xy.1 xy.2), s.pixelAt xy.1⟩])

/-- FRAME's step B: FILL's accesses, then REPL's over the row FILL wrote (R148, R59). -/
def State.frameAccesses (s : State) : List FbAccess := s.fillAccesses ++ s.fillBody.replAccesses

/-- The accesses of an accepted command at acceptance. -/
def State.commandAccesses (s : State) : Instr → List FbAccess
  | .conv _ _ _ => []
  | .keys _ => []
  | .vwait => []
  | .fill => s.fillAccesses
  | .repl => s.replAccesses
  | .frame _ => []

/-- What the block does on the `fb_*` ports for the step it takes at the coming edge, in order. -/
def State.edgeAccesses (s : State) : List FbAccess :=
  if s.edge.rst then []
  else
    match s.phase with
    | .idle =>
      match s.latch.offers with
      | [] => []
      | w :: _ =>
        match decode w with
        | .command i => s.commandAccesses i
        | .illegal _ => []
    | .wait => []
    | .waitFrame => if s.edge.vblank then s.frameAccesses else []

/-- `cmd_ready` in the coming cycle (R22). -/
def State.cmdReadyPort (s : State) : Bool := s.cmdReady s.edge.rst

/-- `rd_data` in the coming cycle: the register `rd_addr` selects, before the edge (R23). -/
def State.rdDataPort (s : State) : Word := s.rdData s.edge.rdAddr

/-- The word the block accepts at the coming edge: `cmd_ready` is 1 and a word is offered (R22). -/
def State.acceptedWord (s : State) : Option Word := if s.cmdReadyPort then s.latch.offers.head? else none

/-- The command the block accepts at the coming edge, if the word it accepts is a legal one. -/
def State.acceptedCommand (s : State) : Option Instr := s.acceptedWord.bind (fun w => (decode w).instr?)

/-- The state after the coming edge. (Every step answers a next state; the other two cases cannot arise.) -/
def State.after (s : State) : State :=
  match step s with
  | .next t => t
  | .fault _ => s
  | .refused _ => s

/-- The coming edge performs an operation: it accepts a command (R22), or it is the vblank event at which a waiting FRAME
does its step B (R148). An illegal word is no operation (R73), and the end of a VWAIT's wait only moves PHASE (R140). -/
def State.operating (s : State) : Bool :=
  s.acceptedCommand.isSome || (s.phase == .waitFrame && s.edge.vblank && !s.edge.rst)

/-- The values a host read of register `a` may return while the operation of the coming edge is in progress, in an
implementation that takes many cycles over it: the old one or the new one, STATUS with BUSY = 1 (R29, R196; log 5). -/
def State.rdDataDuring (s : State) (a : BitVec 2) : List Word :=
  if a = 0 ∧ s.operating = true then [s.statusWith true, s.after.statusWith true]
  else [s.rdData a, s.after.rdData a]

/-- `cmd_ready` while the operation of the coming edge is in progress: 0 (R22). Where the edge performs no operation it is
`cmd_ready` in the coming cycle. -/
def State.cmdReadyDuring (s : State) : Bool := s.cmdReadyPort && !s.operating

/-- The values a read of pixel `i` may return while the operation of the coming edge is in progress (R60). -/
def State.pixelDuring (s : State) (i : Nat) : List Pixel := [s.pixelAt i, s.after.pixelAt i]

end Sys2Proof.Machine
end

