-- ==== Sys2Proof/Safety.lean ====
section
/-! DEFINITION. Safety.lean: where a run stands (R194), what a stuck block is (R178), and the model's invariants (R29,
R39, R57). -/

namespace Sys2Proof.Machine

/-- R194: "A state with STATUS.ILL = 1 is faulted and never final." -/
def State.Faulted (s : State) : Prop := s.ill = true

/-- The host has no further command to offer. -/
def State.NoMoreCommands (s : State) : Prop := s.offers = [] ∧ ∀ e ∈ s.inputs, e.offer = none

/-- R194: PHASE = IDLE, the host has no further command to offer, and STATUS.ILL = 0. -/
def State.Final (s : State) : Prop := s.phase = .idle ∧ s.NoMoreCommands ∧ s.ill = false

/-- R178: the block waits, and neither a vblank nor a reset will ever arrive. Neither a fault nor final; it
steps to itself (log 6). -/
def State.Stuck (s : State) : Prop :=
  s.phase ≠ .idle ∧ ∀ e ∈ s.inputs, e.vblank = false ∧ e.rst = false

/-- Every listed framebuffer byte lies in `[FB_BASE, FB_BASE + 2*W*H)` (R57). -/
def Memory.InFramebuffer (m : Memory) : Prop := ∀ c ∈ m, hsvfill.fbBase ≤ c.1 ∧ c.1 < fbEnd hsvfill

/-- The error record says of itself what R29, R30, R170 and R171 say: nothing recorded while ILL = 0; while ILL = 1,
ERRCMD is a word that is illegal for the recorded cause. CAUSE = 3 is never produced. -/
def State.ErrorRecord (s : State) : Prop :=
  (s.ill = false → s.cause = 0 ∧ s.errcmd = 0) ∧
  (s.ill = true → ∃ c, decode s.errcmd = .illegal c ∧ s.cause = c.code)

/-- The invariant of every step: the framebuffer's canonical form, no access outside it, and the error record. -/
def State.Inv (s : State) : Prop := s.fb.wf ∧ s.fb.InFramebuffer ∧ s.ErrorRecord

/-- R194's runs start here: after reset, whatever the input ports will bring. -/
def State.resetWith (ws : List Word) (es : List EdgeInput) : State :=
  { State.reset with offers := ws, inputs := es }

/-! ### The words the statements use -/

/-- The interaction state is unchanged. -/
def State.SameSatVal (s t : State) : Prop := t.sat = s.sat ∧ t.val = s.val

/-- STATUS.ILL, STATUS.CAUSE and ERRCMD are unchanged. -/
def State.SameErrors (s t : State) : Prop := t.ill = s.ill ∧ t.cause = s.cause ∧ t.errcmd = s.errcmd

/-- Every byte of memory reads as before. -/
def State.SameBytes (s t : State) : Prop := ∀ a, t.byteAt a = s.byteAt a

/-- The host's and the platform's side of the ports, and the draw of FB's contents, are unchanged. -/
def State.SamePorts (s t : State) : Prop :=
  t.offers = s.offers ∧ t.inputs = s.inputs ∧ t.fbDraw = s.fbDraw

/-- `PACK(convert(kx(x), 31 - SAT, 31 - VAL))`, column x's pixel in R152, with `kx` as R142 has it for FLOOR. -/
def columnPixel (sat val : Channel) (x : Nat) : Pixel :=
  let z := convert hsvfill (BitVec.ofNat 5 ((32 * (x + 1) - 1) / 240)) (BitVec.ofNat 5 (31 - sat.toNat))
    (BitVec.ofNat 5 (31 - val.toNat))
  packBgr z.r z.g z.b

/-- No reset and no vblank event arrives at these edges. -/
def Uneventful (es : List EdgeInput) : Prop := ∀ e ∈ es, e.rst = false ∧ e.vblank = false

/-- The words newly offered at these edges, in order. -/
def offeredAt (es : List EdgeInput) : List Word := es.flatMap (fun e => e.offer.toList)

end Sys2Proof.Machine
end

