-- ==== Sys2Proof/Certificates/Slice0/Obligations.lean ====
section
/-! DEFINITION. Certificates/Slice0/Obligations.lean: the statements for the provers. -/

open Sys2Proof Sys2Proof.Machine

/-! ### Encoding -/

/-- R70, R71, R76: a word decodes to a command exactly when it is that command's word; so decoding an encoded command
gives it back, with every operand, and no second word decodes to it. -/
def Obligations.DecodeAndEncodeAgree : Prop :=
  ∀ (i : Instr) (w : Word), i.wf = true → (decode w = .command i ↔ w = encode i)

/-- R75, with R73 and R74: every word is exactly one of: a command; illegal with cause 1, exactly when its opcode is
0x0 or 0x7 to 0xF; illegal with cause 2, exactly when its opcode is defined and the reserved field of its format is not
zero. -/
def Obligations.EveryWordIsACommandOrIllegal : Prop :=
  ∀ w : Word,
    (decode w = .illegal .reservedOpcode ↔ (w.extractLsb' 0 4).toNat = 0 ∨ 7 ≤ (w.extractLsb' 0 4).toNat) ∧
    (decode w = .illegal .reservedBits ↔
      (w.extractLsb' 0 4 = 1 ∧ w.extractLsb' 19 13 ≠ 0) ∨
      ((w.extractLsb' 0 4 = 2 ∨ w.extractLsb' 0 4 = 6) ∧ w.extractLsb' 8 24 ≠ 0) ∨
      ((w.extractLsb' 0 4 = 3 ∨ w.extractLsb' 0 4 = 4 ∨ w.extractLsb' 0 4 = 5) ∧ w.extractLsb' 4 28 ≠ 0)) ∧
    ((∃ i, decode w = .command i) ↔
      decode w ≠ .illegal .reservedOpcode ∧ decode w ≠ .illegal .reservedBits)

/-- R72: a word encodes the instruction of a row when `(w & mask) == match`: the decoder reads a command of the row from
exactly the words the row covers, no word is covered by two rows, and none whose opcode is 0x0 or 0x7 to 0xF by any. -/
def Obligations.OpcodeMapDecidesTheCommand : Prop :=
  opcodeMap =
    [⟨"CONV", 0x00000001, 0xFFF8000F⟩, ⟨"KEYS", 0x00000002, 0xFFFFFF0F⟩, ⟨"VWAIT", 0x00000003, 0xFFFFFFFF⟩,
     ⟨"FILL", 0x00000004, 0xFFFFFFFF⟩, ⟨"REPL", 0x00000005, 0xFFFFFFFF⟩, ⟨"FRAME", 0x00000006, 0xFFFFFF0F⟩] ∧
  (∀ (w : Word) (r : OpRow), r ∈ opcodeMap → r.covers w = true →
    1 ≤ (w.extractLsb' 0 4).toNat ∧ (w.extractLsb' 0 4).toNat ≤ 6) ∧
  (∀ (w : Word) (r : OpRow), r ∈ opcodeMap → (r.covers w = true ↔ ∃ i, decode w = .command i ∧ i.row = r)) ∧
  (∀ (w : Word) (r r' : OpRow), r ∈ opcodeMap → r' ∈ opcodeMap → r.covers w = true → r'.covers w = true → r = r')

/-- R72, R77, R78, 95 V1, V3, V4, V8, P2, P3 and P7: words that the spec writes out with their meaning decode to it. -/
def Obligations.SpecWordsDecode : Prop :=
  decode 0x0007FE01 = .command (.conv 0 31 31) ∧
  decode 0x0002A9D1 = .command (.conv 29 20 10) ∧
  decode 0x00000062 = .command (.keys { up := true, left := true }) ∧
  decode 0x000000A2 = .command (.keys { down := true, left := true }) ∧
  decode 0x00000012 = .command (.keys { right := true }) ∧
  decode 0x00000002 = .command (.keys Keys.none) ∧
  decode 0x00000003 = .command .vwait ∧
  decode 0x00000004 = .command .fill ∧
  decode 0x00000005 = .command .repl ∧
  decode 0x00000046 = .command (.frame { up := true }) ∧
  decode 0x00000016 = .command (.frame { right := true }) ∧
  decode 0x00000000 = .illegal .reservedOpcode ∧
  decode 0xFFFFFFF7 = .illegal .reservedOpcode ∧
  decode 0x00080001 = .illegal .reservedBits

/-- R77 and R78: what every form of assembler line means to the decoder. A CONV operand above 31 is an error, not a
truncation; a key list means the keys it names (that one may name a key twice is the model's choice, log 7); `.word`
gives any word, illegal ones too. What a line's text is, is `AssemblerTextReadsAsItsLine`. -/
def Obligations.AssembledLinesDecode : Prop :=
  (∀ h s v : Nat, h ≤ 31 ∧ s ≤ 31 ∧ v ≤ 31 →
    ∃ w, assemble (.conv h s v) = some w ∧ w.toNat = 1 + 16 * h + 512 * s + 16384 * v ∧
      decode w = .command (.conv (BitVec.ofNat 5 h) (BitVec.ofNat 5 s) (BitVec.ofNat 5 v))) ∧
  (∀ h s v : Nat, 31 < h ∨ 31 < s ∨ 31 < v → assemble (.conv h s v) = none) ∧
  (∀ ks : List KeyName, ∃ w w',
    assemble (.keys ks) = some w ∧ assemble (.frame ks) = some w' ∧
    decode w = .command (.keys ⟨decide (.up ∈ ks), decide (.down ∈ ks), decide (.left ∈ ks), decide (.right ∈ ks)⟩) ∧
    decode w' = .command (.frame ⟨decide (.up ∈ ks), decide (.down ∈ ks), decide (.left ∈ ks), decide (.right ∈ ks)⟩)) ∧
  (assemble .vwait).map decode = some (.command .vwait) ∧
  (assemble .fill).map decode = some (.command .fill) ∧
  (assemble .repl).map decode = some (.command .repl) ∧
  (assemble .nop).map decode = some (.command (.keys Keys.none)) ∧ assemble .nop = assemble (.keys []) ∧
  (∀ w : Word, assemble (.word w) = some w)

/-! ### Configuration -/

/-- R8 and R54: a configuration is admitted exactly when its tables have 32 entries, `REGION_TAB` entries are at most 7,
`OFFSET_TAB` entries at most 5, `W >= 32`, `H >= 1` and `FB_BASE` is even; and this hardware's is admitted. That a table of
another length is refused, and that nothing further is checked, is the model's reading (log 9). -/
def Obligations.OnlyLegalConfigurationsAreAdmitted : Prop :=
  (∀ c : Config, c.admission = some c ↔
    c.regionTab.length = 32 ∧ c.offsetTab.length = 32 ∧ (∀ r ∈ c.regionTab, r ≤ 7) ∧ (∀ o ∈ c.offsetTab, o ≤ 5) ∧
    32 ≤ c.width ∧ 1 ≤ c.height ∧ c.fbBase % 2 = 0) ∧
  (∀ c : Config, c.admission = some c ∨ c.admission = none) ∧
  hsvfill.admission = some hsvfill

/-! ### The converter -/

/-- R103: `offset <= 30`, so `31 - offset >= 1`, `(s * offset) >> 5 <= 29`, `(s * (31 - offset)) >> 5 <= 30`, and no
subtraction of R102 goes below zero, for the default tables and for every legal table; `offset <= 30` for every hue only
when every table entry is at most 5; any other table is refused. -/
def Obligations.NoConverterSubtractionGoesBelowZero : Prop :=
  (∀ (c : Config) (h s : Channel), c.legal = true ∨ c = hsvfill →
    offsetOf c h ≤ 30 ∧ 1 ≤ 31 - offsetOf c h ∧ (s.toNat * offsetOf c h) / 32 ≤ 29 ∧
    (s.toNat * (31 - offsetOf c h)) / 32 ≤ 30 ∧ s.toNat ≤ 31) ∧
  (∀ c : Config, c.offsetTab.length = 32 →
    ((∀ h, offsetOf c h ≤ 30) ↔ ∀ o ∈ c.offsetTab, o ≤ 5) ∧
    ((∃ o ∈ c.offsetTab, 5 < o) → c.admission = none))

/-- R108: the width and range laws; p, q and t are held in 5 bits without loss, so no channel wraps. -/
def Obligations.ConverterValuesFitTheirWidths : Prop :=
  ∀ h s v : Channel,
    v.toNat * (31 - s.toNat) ≤ 961 ∧ s.toNat * offsetOf hsvfill h ≤ 930 ∧
    s.toNat * (31 - offsetOf hsvfill h) ≤ 961 ∧
    interP s.toNat v.toNat ≤ 30 ∧
    2 ≤ 31 - (s.toNat * offsetOf hsvfill h) / 32 ∧ interQ s.toNat v.toNat (offsetOf hsvfill h) ≤ 31 ∧
    1 ≤ 31 - (s.toNat * (31 - offsetOf hsvfill h)) / 32 ∧ interT s.toNat v.toNat (offsetOf hsvfill h) ≤ 31 ∧
    v.toNat * (31 - (s.toNat * offsetOf hsvfill h) / 32) < 1024 ∧
    v.toNat * (31 - (s.toNat * (31 - offsetOf hsvfill h)) / 32) < 1024 ∧
    (BitVec.ofNat 5 (interP s.toNat v.toNat)).toNat = interP s.toNat v.toNat ∧
    (BitVec.ofNat 5 (interQ s.toNat v.toNat (offsetOf hsvfill h))).toNat
      = interQ s.toNat v.toNat (offsetOf hsvfill h) ∧
    (BitVec.ofNat 5 (interT s.toNat v.toNat (offsetOf hsvfill h))).toNat
      = interT s.toNat v.toNat (offsetOf hsvfill h) ∧
    (convert hsvfill h s v).r.toNat ≤ 31 ∧ (convert hsvfill h s v).g.toNat ≤ 31 ∧
    (convert hsvfill h s v).b.toNat ≤ 31

/-- R105: when s = 0 the result is (v, v, v), for any tables; the formula for p would give less than v for v ≥ 1. -/
def Obligations.ZeroSaturationIsAchromatic : Prop :=
  (∀ (c : Config) (h v : Channel), convert c h 0 v = ⟨v, v, v⟩) ∧
  (∀ v : Channel, 1 ≤ v.toNat → interP 0 v.toNat = (v.toNat * 31) / 32 ∧ interP 0 v.toNat < v.toNat)

/-- R104: the selection of (r, g, b) from {v, p, q, t} by region, 5, 6 and 7 being the default row; the converter's
answer is the one the hue's region selects; with the default tables regions 6 and 7 never occur. -/
def Obligations.RegionSelectsTheChannels : Prop :=
  (∀ h : Channel, regionOf hsvfill h ≤ 5) ∧
  (∀ (c : Config) (h s v : Channel), s ≠ 0 →
    convert c h s v = selectRgb (regionOf c h) v (BitVec.ofNat 5 (interP s.toNat v.toNat))
      (BitVec.ofNat 5 (interQ s.toNat v.toNat (offsetOf c h)))
      (BitVec.ofNat 5 (interT s.toNat v.toNat (offsetOf c h)))) ∧
  ∀ v p q t : Channel,
    selectRgb 0 v p q t = ⟨v, t, p⟩ ∧ selectRgb 1 v p q t = ⟨q, v, p⟩ ∧ selectRgb 2 v p q t = ⟨p, v, t⟩ ∧
    selectRgb 3 v p q t = ⟨p, q, v⟩ ∧ selectRgb 4 v p q t = ⟨t, p, v⟩ ∧
    ∀ region, 5 ≤ region → selectRgb region v p q t = ⟨v, p, q⟩

/-- R109: the converter's further laws, 1 to 4. -/
def Obligations.ConverterLaws : Prop :=
  (∀ h v : Channel, convert hsvfill h 0 v = ⟨v, v, v⟩) ∧
  (∀ h s : Channel, convert hsvfill h s 0 = ⟨0, 0, 0⟩) ∧
  (∀ h s v : Channel, 1 ≤ s.toNat →
    (regionOf hsvfill h = 0 ∨ regionOf hsvfill h = 5 → (convert hsvfill h s v).r = v) ∧
    (regionOf hsvfill h = 1 ∨ regionOf hsvfill h = 2 → (convert hsvfill h s v).g = v) ∧
    (regionOf hsvfill h = 3 ∨ regionOf hsvfill h = 4 → (convert hsvfill h s v).b = v) ∧
    (convert hsvfill h s v).r.toNat ≤ v.toNat ∧ (convert hsvfill h s v).g.toNat ≤ v.toNat ∧
    (convert hsvfill h s v).b.toNat ≤ v.toNat) ∧
  interP 31 31 = 0 ∧
  (∀ h : Channel, ∃ m : Channel, m.toNat ≤ 30 ∧
    (m.toNat = interQ 31 31 (offsetOf hsvfill h) ∨ m.toNat = interT 31 31 (offsetOf hsvfill h)) ∧
    (convert hsvfill h 31 31 = ⟨31, m, 0⟩ ∨ convert hsvfill h 31 31 = ⟨m, 31, 0⟩ ∨
     convert hsvfill h 31 31 = ⟨0, 31, m⟩ ∨ convert hsvfill h 31 31 = ⟨0, m, 31⟩ ∨
     convert hsvfill h 31 31 = ⟨m, 0, 31⟩ ∨ convert hsvfill h 31 31 = ⟨31, 0, m⟩))

/-- R107 with R101, R102, R104 to R106 and R28: CONV completes in every state; RES is `r + 32*g + 1024*b` of the converted
triple, computed here from the formulas on the naturals, with `region = h div 6` and `offset = 6*(h mod 6)`. -/
def Obligations.ConvLatchesTheConvertedTriple : Prop :=
  ∀ (h sv v : Channel) (s : State), ∃ t, exec (.conv h sv v) s = .next t ∧
    (sv = 0 → t.res.toNat = v.toNat + 32 * v.toNat + 1024 * v.toNat) ∧
    (sv ≠ 0 →
      ∀ o p q u : Nat, o = 6 * (h.toNat % 6) → p = v.toNat * (31 - sv.toNat) / 32 →
        q = v.toNat * (31 - sv.toNat * o / 32) / 32 → u = v.toNat * (31 - sv.toNat * (31 - o) / 32) / 32 →
        (h.toNat / 6 = 0 → t.res.toNat = v.toNat + 32 * u + 1024 * p) ∧
        (h.toNat / 6 = 1 → t.res.toNat = q + 32 * v.toNat + 1024 * p) ∧
        (h.toNat / 6 = 2 → t.res.toNat = p + 32 * v.toNat + 1024 * u) ∧
        (h.toNat / 6 = 3 → t.res.toNat = p + 32 * q + 1024 * v.toNat) ∧
        (h.toNat / 6 = 4 → t.res.toNat = u + 32 * p + 1024 * v.toNat) ∧
        (h.toNat / 6 = 5 → t.res.toNat = v.toNat + 32 * p + 1024 * q)) ∧
    t.phase = s.phase ∧ s.SameSatVal t ∧ s.SameErrors t ∧ s.SameBytes t ∧ s.SamePorts t

/-! ### The interaction state -/

/-- R121 and R122: KEYS completes in every state; the held key of highest priority selects the branch and the bound test
sits inside it; at most one of SAT and VAL is written and nothing else. -/
def Obligations.KeysUpdatesTheInteractionState : Prop :=
  ∀ (k : Keys) (s : State), ∃ t, exec (.keys k) s = .next t ∧
    (t.sat.toNat =
      if k.up then (if s.sat.toNat < 31 then s.sat.toNat + 1 else s.sat.toNat)
      else if k.down then (if 0 < s.sat.toNat then s.sat.toNat - 1 else s.sat.toNat)
      else s.sat.toNat) ∧
    (t.val.toNat =
      if k.up = false ∧ k.down = false then
        if k.left then (if 0 < s.val.toNat then s.val.toNat - 1 else s.val.toNat)
        else if k.right then (if s.val.toNat < 31 then s.val.toNat + 1 else s.val.toNat)
        else s.val.toNat
      else s.val.toNat) ∧
    t.phase = s.phase ∧ t.res = s.res ∧ s.SameErrors t ∧ s.SameBytes t ∧ s.SamePorts t

/-- R124: `update` stays at the bounds under any number of repetitions. -/
def Obligations.UpdateSaturatesAtTheBounds : Prop :=
  ∀ (sat val : Channel) (k : Keys) (n : Nat),
    (k.up = true → (fun x : Channel × Channel => update x.1 x.2 k)^[n] (31, val) = (31, val)) ∧
    (k.up = false → k.down = true → (fun x : Channel × Channel => update x.1 x.2 k)^[n] (0, val) = (0, val)) ∧
    (k.up = false → k.down = false → k.left = true →
      (fun x : Channel × Channel => update x.1 x.2 k)^[n] (sat, 0) = (sat, 0)) ∧
    (k.up = false → k.down = false → k.left = false → k.right = true →
      (fun x : Channel × Channel => update x.1 x.2 k)^[n] (sat, 31) = (sat, 31)) ∧
    (update sat val k).1.toNat ≤ 31 ∧ (update sat val k).2.toNat ≤ 31

/-- R125: one update changes at most one of SAT and VAL, by exactly 1 or not at all. -/
def Obligations.UpdateMovesAtMostOneUnit : Prop :=
  ∀ (sat val : Channel) (k : Keys),
    ((update sat val k).1 = sat ∨ (update sat val k).2 = val) ∧
    ((update sat val k).1.toNat = sat.toNat ∨ (update sat val k).1.toNat = sat.toNat + 1 ∨
      (update sat val k).1.toNat + 1 = sat.toNat) ∧
    ((update sat val k).2.toNat = val.toNat ∨ (update sat val k).2.toNat = val.toNat + 1 ∨
      (update sat val k).2.toNat + 1 = val.toNat)

/-- R126: holding `up` for n consecutive KEYS commands raises SAT by `min(n, 31 - SAT)`, one command a step. (That the words
stand in a list, one accepted at each edge, is the model's choice, log 2.) -/
def Obligations.HoldingUpRaisesSatToTheBound : Prop :=
  ∀ (n : Nat) (s : State), s.phase = .idle → s.inputs = [] → s.offers = List.replicate n (encode (.keys { up := true })) →
    ∃ t, Host.Core.run Sys2Proof.core n s = .next t ∧ t.sat.toNat = s.sat.toNat + min n (31 - s.sat.toNat) ∧
      t.val = s.val ∧ t.phase = .idle ∧ t.offers = [] ∧ t.res = s.res ∧ s.SameErrors t ∧ s.SameBytes t

/-- R78: NOP is `KEYS none`, the word 0x00000002, and changes no state. -/
def Obligations.NopChangesNothing : Prop :=
  decode 0x00000002 = .command (.keys Keys.none) ∧ ∀ s : State, exec (.keys Keys.none) s = .next s

/-! ### The render stage -/

/-- R142: `start` and `kx` for both roundings: a column belongs to the step whose span it lies in, and to no other. For
this hardware the even steps are 7 columns wide and the odd steps 8. Hue step k writes exactly the columns `start(k)` to
`start(k+1) - 1`, and FILL leaves its pixel in them. -/
def Obligations.ColumnsBelongToTheirHueSteps : Prop :=
  (∀ (c : Config) (k : Nat), c.spanRounding = .floor → spanStart c k = k * c.width / 32) ∧
  (∀ (c : Config) (k : Nat), c.spanRounding = .ceil → 32 * spanStart c k < k * c.width + 32 ∧
    k * c.width ≤ 32 * spanStart c k) ∧
  (∀ (c : Config), spanStart c 0 = 0 ∧ spanStart c 32 = c.width) ∧
  (∀ (c : Config) (x : Nat), c.spanRounding = .floor → hueOfColumn c x = (32 * (x + 1) - 1) / c.width) ∧
  (∀ (c : Config) (x : Nat), c.spanRounding = .ceil → hueOfColumn c x = 32 * x / c.width) ∧
  hsvfill.spanRounding = .floor ∧
  (∀ (c : Config) (x k : Nat), c.legal = true → x < c.width →
    (hueOfColumn c x = k ↔ spanStart c k ≤ x ∧ x < spanStart c (k + 1)) ∧ hueOfColumn c x < 32) ∧
  (∀ k, k < 32 → spanWidth hsvfill k = if k % 2 = 0 then 7 else 8) ∧
  (∀ (c : Config) (sat val : Channel) (x : Nat) (p : Pixel), (x, p) ∈ fillWrites c sat val ↔
    ∃ k, k < 32 ∧ spanStart c k ≤ x ∧ x < spanStart c (k + 1) ∧ p = pix c sat val k) ∧
  (∀ s : State, ∃ t, exec .fill s = .next t ∧ ∀ k x, k < 32 → spanStart hsvfill k ≤ x → x < spanStart hsvfill (k + 1) →
    t.pixelAt x = pix hsvfill s.sat s.val k)

/-- R149: `start` is non-decreasing from 0 to W, every column lies in exactly one of the 32 spans, and every span is at
least `floor(W/32) ≥ 1` wide, for every legal configuration; FILL's row is W pixels long; for W = 240 the widths sum to
240. -/
def Obligations.SpansTileTheRow : Prop :=
  (∀ c : Config, c.legal = true →
    (∀ j k, j ≤ k → spanStart c j ≤ spanStart c k) ∧ spanStart c 0 = 0 ∧ spanStart c 32 = c.width ∧
    (∀ x, x < c.width → ∃ k, (k < 32 ∧ spanStart c k ≤ x ∧ x < spanStart c (k + 1)) ∧
      ∀ j, j < 32 → spanStart c j ≤ x → x < spanStart c (j + 1) → j = k) ∧
    (∀ k, c.width / 32 ≤ spanWidth c k) ∧ 1 ≤ c.width / 32 ∧
    (∀ sat val, (rowPixels c sat val).length = c.width)) ∧
  (∀ sat val, (fillWrites hsvfill sat val).map Prod.fst = List.range 240) ∧
  ((List.range 32).map (spanWidth hsvfill)).sum = 240

/-- R147: PACK's layout: red in bits 4:0, green in 9:5, blue in 14:10, bit 15 zero. -/
def Obligations.PackLayout : Prop :=
  ∀ r g b : Channel,
    hsvfill.pack r g b = 0#1 ++ b ++ g ++ r ∧
    (hsvfill.pack r g b).toNat = r.toNat + g.toNat * 2 ^ 5 + b.toNat * 2 ^ 10 ∧
    (hsvfill.pack r g b).extractLsb' 0 5 = r ∧ (hsvfill.pack r g b).extractLsb' 5 5 = g ∧
    (hsvfill.pack r g b).extractLsb' 10 5 = b ∧ (hsvfill.pack r g b).getLsbD 15 = false

/-- R140: VWAIT completes in every state: PHASE becomes WAIT and nothing else changes. -/
def Obligations.VwaitEntersTheWait : Prop :=
  ∀ s : State, exec .vwait s = .next { s with phase := .wait }

/-- R145 with R142 to R144: FILL completes in every state; column x of row 0 holds `PACK(convert(kx(x), 31 - SAT,
31 - VAL))`. -/
def Obligations.FillBuildsRowZero : Prop :=
  ∀ s : State, ∃ t, exec .fill s = .next t ∧ ∀ x, x < 240 → t.pixelAt x = columnPixel s.sat s.val x

/-- R145: FILL's frame: no register changes (it does not latch RES), and every byte outside row 0 reads as before. -/
def Obligations.FillWritesOnlyRowZero : Prop :=
  ∀ s : State, ∃ t, exec .fill s = .next t ∧
    t.phase = s.phase ∧ s.SameSatVal t ∧ t.res = s.res ∧ s.SameErrors t ∧ s.SamePorts t ∧
    ∀ a, a < fbAddr hsvfill 0 ∨ fbAddr hsvfill 240 ≤ a → t.byteAt a = s.byteAt a

/-- R151: REPL completes in every state; afterwards every row is bit-identical to row 0, and row 0 is as it was, whatever
it held. -/
def Obligations.ReplCopiesRowZeroToEveryRow : Prop :=
  ∀ s : State, ∃ t, exec .repl s = .next t ∧
    ∀ x y, x < 240 → y < 160 →
      t.pixelAt (pixelIndex hsvfill x y) = t.pixelAt x ∧ t.pixelAt x = s.pixelAt x

/-- R146: REPL's frame: no register changes, and every byte outside rows 1 to 159 reads as before. -/
def Obligations.ReplWritesOnlyTheOtherRows : Prop :=
  ∀ s : State, ∃ t, exec .repl s = .next t ∧
    t.phase = s.phase ∧ s.SameSatVal t ∧ t.res = s.res ∧ s.SameErrors t ∧ s.SamePorts t ∧
    ∀ a, a < fbAddr hsvfill 240 ∨ fbAddr hsvfill 38400 ≤ a → t.byteAt a = s.byteAt a

/-- R148, step A: FRAME completes its acceptance in every state: SAT and VAL are updated as KEYS updates them, PHASE is
WAIT_FRAME, and nothing else changes. -/
def Obligations.FrameStepAUpdatesAndWaits : Prop :=
  ∀ (k : Keys) (s : State), ∃ t u, exec (.frame k) s = .next t ∧ exec (.keys k) s = .next u ∧
    t = { u with phase := .waitFrame } ∧
    (t.sat, t.val) = update s.sat s.val k ∧ t.phase = .waitFrame ∧
    t.res = s.res ∧ s.SameErrors t ∧ s.SameBytes t ∧ s.SamePorts t

/-- The frame of the commands that store nothing (R107, R121, R140, R148): no byte of the framebuffer and no error
register changes, and each keeps the registers its rule does not name. -/
def Obligations.RegisterCommandsStoreNothing : Prop :=
  ∀ (i : Instr) (s : State), i ≠ .fill → i ≠ .repl → ∃ t, exec i s = .next t ∧
    s.SameBytes t ∧ s.SameErrors t ∧ s.SamePorts t ∧
    ((∀ h sv v, i ≠ .conv h sv v) → t.res = s.res) ∧
    ((∀ k, i ≠ .keys k) → (∀ k, i ≠ .frame k) → s.SameSatVal t) ∧
    (i ≠ .vwait → (∀ k, i ≠ .frame k) → t.phase = s.phase)

/-- R145 and R55: FILL is its two loops, one MemWrite at a time in ascending order. -/
def Obligations.FillIsItsWriteLoop : Prop :=
  ∀ s : State, exec .fill s = .next s.fillLoop

/-- R146, R55 and R59: REPL is its two loops, each pixel of row 0 read from the framebuffer just before its copy is
written. -/
def Obligations.ReplIsItsCopyLoop : Prop :=
  ∀ s : State, exec .repl s = .next s.replLoop

/-- R56: for fixed SAT and VAL, FILL twice leaves the framebuffer FILL once leaves; for a fixed row 0, so does REPL. -/
def Obligations.FillAndReplAreIdempotent : Prop :=
  ∀ s t u : State,
    (exec .fill s = .next t → exec .fill t = .next u → u = t) ∧
    (exec .repl s = .next t → exec .repl t = .next u → u = t)

/-- R54, R57 and R195: every access of every step is 2-byte aligned and inside the framebuffer; step B of FRAME makes
38400 writes and 38160 reads. -/
def Obligations.AccessesStayInTheFramebuffer : Prop :=
  (∀ (s : State) (a : FbAccess), a ∈ s.edgeAccesses →
    a.addr % 2 = 0 ∧ hsvfill.fbBase ≤ a.addr ∧ a.addr + 2 ≤ fbEnd hsvfill ∧ a.fbAddrPort.toNat = a.addr) ∧
  (∀ s : State, (s.frameAccesses.filter (fun a => a.write)).length = 38400 ∧
    (s.frameAccesses.filter (fun a => !a.write)).length = 38160)

/-- R52: a pixel written at `FB_BASE + 2*i` has its low byte there and its high byte at the next address, reads back as
written, and no other byte changes; a 32-bit word at `FB_BASE + 4*j` reads `{FB[2j+1], FB[2j]}`. -/
def Obligations.PixelsAreLittleEndian : Prop :=
  (∀ (s : State) (i : Nat) (v : Pixel) (a : Nat),
    (s.memWrite (fbAddr hsvfill i) v).byteAt (fbAddr hsvfill i) = v.extractLsb' 0 8 ∧
    (s.memWrite (fbAddr hsvfill i) v).byteAt (fbAddr hsvfill i + 1) = v.extractLsb' 8 8 ∧
    (s.memWrite (fbAddr hsvfill i) v).pixelAt i = v ∧
    (a ≠ fbAddr hsvfill i → a ≠ fbAddr hsvfill i + 1 →
      (s.memWrite (fbAddr hsvfill i) v).byteAt a = s.byteAt a)) ∧
  (∀ (s : State) (j : Nat),
    (s.byteAt (0x06000000 + 4 * j + 3) ++ s.byteAt (0x06000000 + 4 * j + 2) ++ s.byteAt (0x06000000 + 4 * j + 1) ++
      s.byteAt (0x06000000 + 4 * j) : Word) = s.pixelAt (2 * j + 1) ++ s.pixelAt (2 * j))

/-! ### The step: accepting, waiting, resetting -/

/-- R22: when an idle block is not reset, the oldest word offered is accepted, and if it decodes to a command the step is
that command's `exec`, after the edge's inputs are taken. (The lists of offers and inputs are the model's choice, log 2.) -/
def Obligations.StepRunsTheAcceptedCommand : Prop :=
  ∀ (s : State) (w : Word) (ws : List Word) (i : Instr),
    s.edge.rst = false → s.phase = .idle → s.offers ++ s.edge.offer.toList = w :: ws → decode w = .command i →
    step s = exec i { s with inputs := s.inputs.tail, offers := ws }

/-- R171 and R173: an accepted illegal word sets ILL, CAUSE and ERRCMD if ILL was 0, changes nothing else, and the block
stays ready for the next command. (The lists of offers and inputs are the model's choice, log 2.) -/
def Obligations.StepRecordsTheFirstIllegalWord : Prop :=
  ∀ (s : State) (w : Word) (ws : List Word) (c : IllegalCause),
    s.edge.rst = false → s.phase = .idle → s.offers ++ s.edge.offer.toList = w :: ws → decode w = .illegal c →
    ∃ t, step s = .next t ∧ t.ill = true ∧
      (s.ill = false → t.cause = c.code ∧ t.errcmd = w) ∧
      (s.ill = true → t.cause = s.cause ∧ t.errcmd = s.errcmd) ∧
      t.phase = .idle ∧ s.SameSatVal t ∧ t.res = s.res ∧ s.SameBytes t ∧
      t.offers = ws ∧ t.inputs = s.inputs.tail ∧ t.cmdReady false = true

/-- R174: while ILL = 1 no step but a reset changes ILL, CAUSE or ERRCMD; so a faulted run never becomes final (R194). -/
def Obligations.TheFirstErrorSticks : Prop :=
  ∀ (n : Nat) (s t : State), s.ill = true → (∀ e ∈ s.inputs, e.rst = false) →
    Host.Core.run Sys2Proof.core n s = .next t → s.SameErrors t ∧ t.Faulted ∧ ¬ t.Final

/-- R172: no command and no word fails: every run of every length goes on. (That a stuck wait goes on too is the model's
choice, log 6.) -/
def Obligations.EveryRunGoesOn : Prop :=
  ∀ (n : Nat) (s : State), ∃ t, Host.Core.run Sys2Proof.core n s = .next t

/-- R33: the PHASE transitions, all of them. WAIT_FRAME to IDLE performs FILL and then REPL in the same step, and a
vblank event while PHASE = IDLE changes no state: the step is the one without it. -/
def Obligations.PhaseTransitionsAreExact : Prop :=
  (∀ s t : State, step s = .next t →
    (s.edge.rst = true → t.phase = .idle) ∧
    (s.edge.rst = false → s.phase = .idle →
      (t.phase = .wait ↔ s.acceptedCommand = some .vwait) ∧
      (t.phase = .waitFrame ↔ ∃ k, s.acceptedCommand = some (.frame k))) ∧
    (s.edge.rst = false → s.phase ≠ .idle → s.edge.vblank = true → t.phase = .idle) ∧
    (s.edge.rst = false → s.phase ≠ .idle → s.edge.vblank = false → t.phase = s.phase) ∧
    (s.edge.rst = false → s.phase = .waitFrame → s.edge.vblank = true →
      ∃ u v, exec .fill s.latch = .next u ∧ exec .repl u = .next v ∧ t = { v with phase := .idle })) ∧
  (∀ (s : State) (e : EdgeInput) (es : List EdgeInput), s.phase = .idle → e.rst = false →
    step { s with inputs := { e with vblank := true } :: es } = step { s with inputs := { e with vblank := false } :: es })

/-- R190 with R38 and R22: a rising edge with `rst = 1`, whatever the block was doing and whatever else arrives: no word
is accepted, no framebuffer access is made, every register has its reset value and reads as zero. That the words offered
are still offered is the model's reading (log 11); of FB's contents nothing is said (log 3). -/
def Obligations.ResetEdgeRestoresTheRegisters : Prop :=
  ∀ s : State, s.edge.rst = true →
    s.cmdReadyPort = false ∧ s.acceptedWord = none ∧ s.edgeAccesses = [] ∧
    ∃ t, step s = .next t ∧ t.phase = .idle ∧ t.sat = 0 ∧ t.val = 0 ∧ t.res = 0 ∧ t.ill = false ∧ t.cause = 0 ∧
      t.errcmd = 0 ∧ (∀ a, t.rdData a = 0) ∧ t.offers = s.offers ++ s.edge.offer.toList ∧ t.inputs = s.inputs.tail

/-- R38 and R32: the state after reset, register by register and through the read port. -/
def Obligations.ResetStateIsAsSpecified : Prop :=
  State.reset.phase = .idle ∧ State.reset.sat = 0 ∧ State.reset.val = 0 ∧ State.reset.res = 0 ∧
  State.reset.ill = false ∧ State.reset.cause = 0 ∧ State.reset.errcmd = 0 ∧ (∀ a, State.reset.rdData a = 0) ∧
  State.reset.cmdReady false = true

/-- R22 and R199: a waiting block accepts no word; only a vblank event or a reset moves it, and until then no register
and no byte of the framebuffer changes. (The lists of offers and inputs are the model's choice, log 2.) -/
def Obligations.AWaitingBlockAcceptsNothing : Prop :=
  ∀ s : State, s.phase ≠ .idle → s.edge.rst = false →
    s.cmdReadyPort = false ∧ s.acceptedWord = none ∧
    ∃ t, step s = .next t ∧ t.offers = s.offers ++ s.edge.offer.toList ∧ t.inputs = s.inputs.tail ∧
      s.SameSatVal t ∧ t.res = s.res ∧ s.SameErrors t ∧
      (s.edge.vblank = false → t.phase = s.phase ∧ s.SameBytes t)

/-- R22 and R197: a word offered is neither lost nor changed nor reordered: what a step does not accept is still offered,
behind nothing that came later. At a reset too, which is the model's reading (log 11). -/
def Obligations.OfferedWordsAreNotLost : Prop :=
  ∀ s t : State, step s = .next t →
    s.acceptedWord.toList ++ t.offers = s.offers ++ s.edge.offer.toList

/-- R140 and R178: from PHASE = WAIT, as long as neither a reset nor a vblank event arrives the block waits; the first
vblank event ends the wait, and the wait has changed nothing else. (The lists of offers and inputs are the model's choice, log 2.) -/
def Obligations.VwaitEndsAtTheFirstVblank : Prop :=
  ∀ (s : State) (es rest : List EdgeInput) (e : EdgeInput),
    s.phase = .wait → s.inputs = es ++ e :: rest → Uneventful es → e.rst = false → e.vblank = true →
    (∃ t, Host.Core.run Sys2Proof.core es.length s = .next t ∧ t.phase = .wait) ∧
    ∃ t, Host.Core.run Sys2Proof.core (es.length + 1) s = .next t ∧ t.phase = .idle ∧ s.SameSatVal t ∧
      t.res = s.res ∧ s.SameErrors t ∧ s.SameBytes t ∧ t.inputs = rest ∧
      t.offers = s.offers ++ offeredAt (es ++ [e])

/-- R148, R152, R176 and R199: an accepted FRAME, whatever the host offers while it waits, renders at the first vblank event
the SAT and VAL its own step A wrote: every pixel of every row is then column x's pixel, and no earlier framebuffer
content survives. RES and the error registers are unchanged. (The lists of offers and inputs are the model's choice,
log 2.) -/
def Obligations.FrameRendersItsOwnStateAtTheFirstVblank : Prop :=
  ∀ (s u : State) (k : Keys) (es rest : List EdgeInput) (e : EdgeInput),
    exec (.frame k) s = .next u → s.inputs = es ++ e :: rest → Uneventful es → e.rst = false → e.vblank = true →
    (∃ t, Host.Core.run Sys2Proof.core es.length u = .next t ∧ t.phase = .waitFrame ∧ s.SameBytes t) ∧
    ∃ t, Host.Core.run Sys2Proof.core (es.length + 1) u = .next t ∧ t.phase = .idle ∧
      (t.sat, t.val) = update s.sat s.val k ∧ t.res = s.res ∧ s.SameErrors t ∧ t.inputs = rest ∧
      ∀ x y, x < 240 → y < 160 → t.pixelAt (pixelIndex hsvfill x y) = columnPixel t.sat t.val x

/-- R152: after step B every pixel is a function of SAT and VAL alone: two blocks that wait in a FRAME with the same SAT
and VAL, each with a framebuffer in canonical form and inside its range, hold after the vblank event the same
framebuffer, byte for byte, however different their framebuffers were. (The canonical form is the model's, log 1.) -/
def Obligations.NoEarlierFrameContentSurvives : Prop :=
  ∀ s s' t t' : State, s.fb.wf → s.fb.InFramebuffer → s'.fb.wf → s'.fb.InFramebuffer →
    s.phase = .waitFrame → s'.phase = .waitFrame → s.sat = s'.sat → s.val = s'.val →
    s.edge.rst = false → s'.edge.rst = false → s.edge.vblank = true → s'.edge.vblank = true →
    step s = .next t → step s' = .next t' →
    t.fb = t'.fb ∧ ∀ a, hsvfill.fbBase ≤ a → a < fbEnd hsvfill → t.byteAt a = t'.byteAt a

/-- R150: the service loop run for a bounded number of frames, each a FRAME, any number of quiet edges and a vblank
event: SAT and VAL are the snapshots' updates applied in order, and the framebuffer is the one R152 gives for them. (The
lists of offers and inputs are the model's choice, log 2.) -/
def Obligations.BoundedFramesRunTheServiceLoop : Prop :=
  ∀ (ks : List (Keys × Nat)) (s : State), s.phase = .idle → s.offers = [] →
    s.inputs = ks.flatMap (fun k => { offer := some (encode (.frame k.1)) } ::
      (List.replicate k.2 EdgeInput.quiet ++ [{ vblank := true }])) →
    ∃ t, Host.Core.run Sys2Proof.core (ks.map (fun k => k.2 + 2)).sum s = .next t ∧ t.phase = .idle ∧
      (t.sat, t.val) = ks.foldl (fun x k => update x.1 x.2 k.1) (s.sat, s.val) ∧ t.res = s.res ∧ s.SameErrors t ∧
      (ks ≠ [] → ∀ x y, x < 240 → y < 160 → t.pixelAt (pixelIndex hsvfill x y) = columnPixel t.sat t.val x)

/-- R178: a block that waits for a vblank event that never comes stays as it is for ever: no fault, not final, every
register and byte kept (R185). That it steps to itself, and does not lack a step, is the model's choice (log 6). -/
def Obligations.AStuckBlockStaysStuck : Prop :=
  ∀ (n : Nat) (s : State), s.Stuck →
    ∃ t, Host.Core.run Sys2Proof.core n s = .next t ∧ t.Stuck ∧ ¬ t.Final ∧ t.phase = s.phase ∧ s.SameSatVal t ∧
      t.res = s.res ∧ s.SameErrors t ∧ s.SameBytes t

/-- R194: a final state is one nothing more happens in, whatever vblank events still come: without a reset, every later
state is final and holds the same registers and bytes. (That no more words come is read from the model's lists, log 2.) -/
def Obligations.AFinalStateStaysFinal : Prop :=
  ∀ (n : Nat) (s : State), s.Final → (∀ e ∈ s.inputs, e.rst = false) →
    ∃ t, Host.Core.run Sys2Proof.core n s = .next t ∧ t.Final ∧ s.SameSatVal t ∧ t.res = s.res ∧ s.SameErrors t ∧
      s.SameBytes t

/-! ### Who writes what -/

/-- R27, R28 and R30, over every step: without a reset, SAT and VAL change only when a KEYS or a FRAME is accepted, RES
only when a CONV is, and ILL, CAUSE and ERRCMD only when an illegal word is. -/
def Obligations.OnlyTheNamedWritersWriteRegisters : Prop :=
  ∀ s t : State, step s = .next t → s.edge.rst = false →
    (¬ s.SameSatVal t → ∃ k, s.acceptedCommand = some (.keys k) ∨ s.acceptedCommand = some (.frame k)) ∧
    (t.res ≠ s.res → ∃ h sv v, s.acceptedCommand = some (.conv h sv v)) ∧
    (¬ s.SameErrors t → ∃ w c, s.acceptedWord = some w ∧ decode w = .illegal c)

/-- R51 and R65, over every step: without a reset, a byte of the framebuffer changes only when a FILL or a REPL is
accepted or a waiting FRAME gets its vblank event. -/
def Obligations.OnlyRenderingWritesTheFramebuffer : Prop :=
  ∀ s t : State, step s = .next t → s.edge.rst = false → ¬ s.SameBytes t →
    s.acceptedCommand = some .fill ∨ s.acceptedCommand = some .repl ∨
    (s.phase = .waitFrame ∧ s.edge.vblank = true)

/-- R29: STATUS, bit by bit, in every state, between operations (log 5). -/
def Obligations.StatusFields : Prop :=
  ∀ s : State,
    s.statusWord.getLsbD 0 = decide (s.phase ≠ .idle) ∧
    s.statusWord.getLsbD 1 = decide (s.phase = .wait ∨ s.phase = .waitFrame) ∧
    s.statusWord.getLsbD 2 = s.ill ∧ s.statusWord.extractLsb' 3 2 = s.cause ∧
    s.statusWord.getLsbD 5 = decide (s.phase = .waitFrame) ∧ s.statusWord.extractLsb' 6 26 = 0 ∧
    s.statusWord.getLsbD 0 = s.statusWord.getLsbD 1

/-- R31, R28, R30 and R32: what indices 0 to 3 of the read port show. -/
def Obligations.ReadPortMap : Prop :=
  ∀ s : State,
    s.rdData 0 = s.statusWord ∧
    (s.rdData 1).extractLsb' 0 5 = s.sat ∧ (s.rdData 1).extractLsb' 5 3 = 0 ∧
    (s.rdData 1).extractLsb' 8 5 = s.val ∧ (s.rdData 1).extractLsb' 13 19 = 0 ∧
    (s.rdData 2).extractLsb' 0 15 = s.res ∧ (s.rdData 2).extractLsb' 15 17 = 0 ∧ s.rdData 3 = s.errcmd

/-- R196: a read of SV or RES while the operation of the coming edge is in progress returns one of two values, the
register before the edge or after it; they differ for RES only if a CONV is accepted, and for SV only if a KEYS or a
FRAME is. R60: a read of a pixel returns the old value or the new one, and the same one if no rendering operation runs.
(Without a reset. That the operation is one edge is log 5; STATUS is `StatusShowsBusyDuringAnOperation`.) -/
def Obligations.ReadsDuringAnOperationAreOldOrNew : Prop :=
  ∀ s t : State, step s = .next t → s.edge.rst = false →
    (∀ a w, a = 1 ∨ a = 2 → (w ∈ s.rdDataDuring a ↔ w = s.rdData a ∨ w = t.rdData a)) ∧
    (∀ i p, p ∈ s.pixelDuring i ↔ p = s.pixelAt i ∨ p = t.pixelAt i) ∧
    (s.edgeAccesses = [] → ∀ i p, p ∈ s.pixelDuring i → p = s.pixelAt i) ∧
    ((∀ h sv v, s.acceptedCommand ≠ some (.conv h sv v)) → ∀ w ∈ s.rdDataDuring 2, w = s.rdData 2) ∧
    ((∀ k, s.acceptedCommand ≠ some (.keys k) ∧ s.acceptedCommand ≠ some (.frame k)) →
      ∀ w ∈ s.rdDataDuring 1, w = s.rdData 1)

/-! ### The invariant -/

/-- The invariant (the framebuffer's canonical form, which is the model's, log 1; nothing outside it; a truthful error
record) holds after reset. -/
def Obligations.InvariantHoldsAtReset : Prop := State.reset.Inv

/-- From every state, every step keeps the invariant: the framebuffer's canonical form (the model's, log 1), no byte outside
`[FB_BASE, FB_BASE + 2*W*H)` (R57), and an error record that says of itself what R29, R30, R170 and R171 say: CAUSE and
ERRCMD are 0 while ILL = 0, and while ILL = 1 ERRCMD is a word that is illegal for the recorded CAUSE, which is never
3. -/
def Obligations.EveryStepKeepsTheInvariant : Prop :=
  ∀ s t : State, s.Inv → step s = .next t → t.Inv ∧ t.cause ≠ 3

/-! ### Added after the review: the assembler's text, step B alone, STATUS during an operation -/

/-- R77: the text of every form of assembler line reads as that line: CONV's numbers in decimal or with `0x`, key lists
in any order, `KEYS` and `FRAME` alone, `.word`; and a `#` starts a comment that runs to the end of the line. (That the
hexadecimal digits here are in lower case, and one space or none stands between the words, is the model's choice of what
a line may look like, log 7.) -/
def Obligations.AssemblerTextReadsAsItsLine : Prop :=
  (∀ (h s v : Nat) (a b c : List Char), (a = decimalText h ∨ a = hexText h) → (b = decimalText s ∨ b = hexText s) →
    (c = decimalText v ∨ c = hexText v) →
    parseLine (['C', 'O', 'N', 'V', ' '] ++ a ++ [',', ' '] ++ b ++ [',', ' '] ++ c) = some (some (.conv h s v))) ∧
  (∀ ks : List KeyName,
    parseLine (['K', 'E', 'Y', 'S', ' '] ++ keyListText ks) = some (some (.keys ks)) ∧
    parseLine (['F', 'R', 'A', 'M', 'E', ' '] ++ keyListText ks) = some (some (.frame ks))) ∧
  parseLine ['K', 'E', 'Y', 'S'] = some (some (.keys [])) ∧
  parseLine ['F', 'R', 'A', 'M', 'E'] = some (some (.frame [])) ∧
  parseLine ['V', 'W', 'A', 'I', 'T'] = some (some .vwait) ∧
  parseLine ['F', 'I', 'L', 'L'] = some (some .fill) ∧
  parseLine ['R', 'E', 'P', 'L'] = some (some .repl) ∧
  parseLine ['N', 'O', 'P'] = some (some .nop) ∧
  (∀ w : Word, parseLine (['.', 'w', 'o', 'r', 'd', ' '] ++ wordText w) = some (some (.word w))) ∧
  (∀ cs ds : List Char, '#' ∉ cs → parseLine (cs ++ '#' :: ds) = parseLine cs)

/-- R152: step B of FRAME, at the vblank event, from every waiting state: every pixel of column x becomes
`PACK(convert(kx(x), 31 - SAT, 31 - VAL))`, whatever the framebuffer held. -/
def Obligations.StepBOverwritesEveryPixel : Prop :=
  ∀ s : State, s.phase = .waitFrame → s.edge.rst = false → s.edge.vblank = true →
    ∃ t, step s = .next t ∧ t.sat = s.sat ∧ t.val = s.val ∧
      ∀ x y, x < 240 → y < 160 → t.pixelAt (pixelIndex hsvfill x y) = columnPixel s.sat s.val x

/-- R29, R196 and R22: while an operation is in progress (a command accepted at the coming edge, or a waiting FRAME's step
B) STATUS reads with BUSY = 1, its other bits those before or after it, and `cmd_ready` is 0. (That the operation is one
edge, which a slower implementation spreads over many cycles, is log 5.) -/
def Obligations.StatusShowsBusyDuringAnOperation : Prop :=
  ∀ s t : State, step s = .next t →
    (∃ i, s.acceptedCommand = some i) ∨ (s.phase = .waitFrame ∧ s.edge.vblank = true ∧ s.edge.rst = false) →
    s.cmdReadyDuring = false ∧
    ∀ w, w ∈ s.rdDataDuring 0 ↔ w.getLsbD 0 = true ∧
      (w.extractLsb' 1 31 = s.statusWord.extractLsb' 1 31 ∨ w.extractLsb' 1 31 = t.statusWord.extractLsb' 1 31)
end

