-- ==== Sys2Proof/Laws/State.lean ====
section
/-! SUPPORT. Laws/State.lean: for each update of the state, each field after it, true by rfl. -/

namespace Sys2Proof.Machine

variable (s : State)

/-! the interaction-state update (R122) -/

@[simp] theorem applyKeys_phase (k : Keys) : (s.applyKeys k).phase = s.phase := rfl
@[simp] theorem applyKeys_sat (k : Keys) : (s.applyKeys k).sat = (update s.sat s.val k).1 := rfl
@[simp] theorem applyKeys_val (k : Keys) : (s.applyKeys k).val = (update s.sat s.val k).2 := rfl
@[simp] theorem applyKeys_res (k : Keys) : (s.applyKeys k).res = s.res := rfl
@[simp] theorem applyKeys_ill (k : Keys) : (s.applyKeys k).ill = s.ill := rfl
@[simp] theorem applyKeys_cause (k : Keys) : (s.applyKeys k).cause = s.cause := rfl
@[simp] theorem applyKeys_errcmd (k : Keys) : (s.applyKeys k).errcmd = s.errcmd := rfl
@[simp] theorem applyKeys_fb (k : Keys) : (s.applyKeys k).fb = s.fb := rfl
@[simp] theorem applyKeys_fbDraw (k : Keys) : (s.applyKeys k).fbDraw = s.fbDraw := rfl
@[simp] theorem applyKeys_offers (k : Keys) : (s.applyKeys k).offers = s.offers := rfl
@[simp] theorem applyKeys_inputs (k : Keys) : (s.applyKeys k).inputs = s.inputs := rfl

/-! one pixel written (R11) -/

@[simp] theorem memWrite_phase (a : Nat) (v : Pixel) : (s.memWrite a v).phase = s.phase := rfl
@[simp] theorem memWrite_sat (a : Nat) (v : Pixel) : (s.memWrite a v).sat = s.sat := rfl
@[simp] theorem memWrite_val (a : Nat) (v : Pixel) : (s.memWrite a v).val = s.val := rfl
@[simp] theorem memWrite_res (a : Nat) (v : Pixel) : (s.memWrite a v).res = s.res := rfl
@[simp] theorem memWrite_ill (a : Nat) (v : Pixel) : (s.memWrite a v).ill = s.ill := rfl
@[simp] theorem memWrite_cause (a : Nat) (v : Pixel) : (s.memWrite a v).cause = s.cause := rfl
@[simp] theorem memWrite_errcmd (a : Nat) (v : Pixel) : (s.memWrite a v).errcmd = s.errcmd := rfl
@[simp] theorem memWrite_fb (a : Nat) (v : Pixel) : (s.memWrite a v).fb = s.fb.writeBytes a (pixelBytes hsvfill.fbEndian v) := rfl
@[simp] theorem memWrite_fbDraw (a : Nat) (v : Pixel) : (s.memWrite a v).fbDraw = s.fbDraw := rfl
@[simp] theorem memWrite_offers (a : Nat) (v : Pixel) : (s.memWrite a v).offers = s.offers := rfl
@[simp] theorem memWrite_inputs (a : Nat) (v : Pixel) : (s.memWrite a v).inputs = s.inputs := rfl

/-! consecutive pixels written (R55) -/

@[simp] theorem writePixels_phase (i : Nat) (ps : List Pixel) : (s.writePixels i ps).phase = s.phase := rfl
@[simp] theorem writePixels_sat (i : Nat) (ps : List Pixel) : (s.writePixels i ps).sat = s.sat := rfl
@[simp] theorem writePixels_val (i : Nat) (ps : List Pixel) : (s.writePixels i ps).val = s.val := rfl
@[simp] theorem writePixels_res (i : Nat) (ps : List Pixel) : (s.writePixels i ps).res = s.res := rfl
@[simp] theorem writePixels_ill (i : Nat) (ps : List Pixel) : (s.writePixels i ps).ill = s.ill := rfl
@[simp] theorem writePixels_cause (i : Nat) (ps : List Pixel) : (s.writePixels i ps).cause = s.cause := rfl
@[simp] theorem writePixels_errcmd (i : Nat) (ps : List Pixel) : (s.writePixels i ps).errcmd = s.errcmd := rfl
@[simp] theorem writePixels_fb (i : Nat) (ps : List Pixel) : (s.writePixels i ps).fb = s.fb.writeBytes (fbAddr hsvfill i) (ps.flatMap (pixelBytes hsvfill.fbEndian)) := rfl
@[simp] theorem writePixels_fbDraw (i : Nat) (ps : List Pixel) : (s.writePixels i ps).fbDraw = s.fbDraw := rfl
@[simp] theorem writePixels_offers (i : Nat) (ps : List Pixel) : (s.writePixels i ps).offers = s.offers := rfl
@[simp] theorem writePixels_inputs (i : Nat) (ps : List Pixel) : (s.writePixels i ps).inputs = s.inputs := rfl

/-! FILL (R145) -/

@[simp] theorem fillBody_phase : (s.fillBody).phase = s.phase := rfl
@[simp] theorem fillBody_sat : (s.fillBody).sat = s.sat := rfl
@[simp] theorem fillBody_val : (s.fillBody).val = s.val := rfl
@[simp] theorem fillBody_res : (s.fillBody).res = s.res := rfl
@[simp] theorem fillBody_ill : (s.fillBody).ill = s.ill := rfl
@[simp] theorem fillBody_cause : (s.fillBody).cause = s.cause := rfl
@[simp] theorem fillBody_errcmd : (s.fillBody).errcmd = s.errcmd := rfl
@[simp] theorem fillBody_fb : (s.fillBody).fb = (s.writePixels 0 (rowPixels hsvfill s.sat s.val)).fb := rfl
@[simp] theorem fillBody_fbDraw : (s.fillBody).fbDraw = s.fbDraw := rfl
@[simp] theorem fillBody_offers : (s.fillBody).offers = s.offers := rfl
@[simp] theorem fillBody_inputs : (s.fillBody).inputs = s.inputs := rfl

/-! REPL (R146) -/

@[simp] theorem replBody_phase : (s.replBody).phase = s.phase := rfl
@[simp] theorem replBody_sat : (s.replBody).sat = s.sat := rfl
@[simp] theorem replBody_val : (s.replBody).val = s.val := rfl
@[simp] theorem replBody_res : (s.replBody).res = s.res := rfl
@[simp] theorem replBody_ill : (s.replBody).ill = s.ill := rfl
@[simp] theorem replBody_cause : (s.replBody).cause = s.cause := rfl
@[simp] theorem replBody_errcmd : (s.replBody).errcmd = s.errcmd := rfl
@[simp] theorem replBody_fb : (s.replBody).fb = (s.writePixels hsvfill.width (List.replicate (hsvfill.height - 1) s.rowZero).flatten).fb := rfl
@[simp] theorem replBody_fbDraw : (s.replBody).fbDraw = s.fbDraw := rfl
@[simp] theorem replBody_offers : (s.replBody).offers = s.offers := rfl
@[simp] theorem replBody_inputs : (s.replBody).inputs = s.inputs := rfl

/-! reset (R190) -/

@[simp] theorem resetEdge_phase : (s.resetEdge).phase = .idle := rfl
@[simp] theorem resetEdge_sat : (s.resetEdge).sat = hsvfill.initSat := rfl
@[simp] theorem resetEdge_val : (s.resetEdge).val = hsvfill.initVal := rfl
@[simp] theorem resetEdge_res : (s.resetEdge).res = 0 := rfl
@[simp] theorem resetEdge_ill : (s.resetEdge).ill = false := rfl
@[simp] theorem resetEdge_cause : (s.resetEdge).cause = 0 := rfl
@[simp] theorem resetEdge_errcmd : (s.resetEdge).errcmd = 0 := rfl
@[simp] theorem resetEdge_fb : (s.resetEdge).fb = [] := rfl
@[simp] theorem resetEdge_fbDraw : (s.resetEdge).fbDraw = s.fbDraw + 1 := rfl
@[simp] theorem resetEdge_offers : (s.resetEdge).offers = s.offers := rfl
@[simp] theorem resetEdge_inputs : (s.resetEdge).inputs = s.inputs := rfl

/-! taking an edge's inputs (R22) -/

@[simp] theorem latch_phase : (s.latch).phase = s.phase := rfl
@[simp] theorem latch_sat : (s.latch).sat = s.sat := rfl
@[simp] theorem latch_val : (s.latch).val = s.val := rfl
@[simp] theorem latch_res : (s.latch).res = s.res := rfl
@[simp] theorem latch_ill : (s.latch).ill = s.ill := rfl
@[simp] theorem latch_cause : (s.latch).cause = s.cause := rfl
@[simp] theorem latch_errcmd : (s.latch).errcmd = s.errcmd := rfl
@[simp] theorem latch_fb : (s.latch).fb = s.fb := rfl
@[simp] theorem latch_fbDraw : (s.latch).fbDraw = s.fbDraw := rfl
@[simp] theorem latch_offers : (s.latch).offers = s.offers ++ s.edge.offer.toList := rfl
@[simp] theorem latch_inputs : (s.latch).inputs = s.inputs.tail := rfl

/-! offering a word (log 4) -/

@[simp] theorem withOffer_phase (w : Word) : (s.withOffer w).phase = .idle := rfl
@[simp] theorem withOffer_sat (w : Word) : (s.withOffer w).sat = s.sat := rfl
@[simp] theorem withOffer_val (w : Word) : (s.withOffer w).val = s.val := rfl
@[simp] theorem withOffer_res (w : Word) : (s.withOffer w).res = s.res := rfl
@[simp] theorem withOffer_ill (w : Word) : (s.withOffer w).ill = s.ill := rfl
@[simp] theorem withOffer_cause (w : Word) : (s.withOffer w).cause = s.cause := rfl
@[simp] theorem withOffer_errcmd (w : Word) : (s.withOffer w).errcmd = s.errcmd := rfl
@[simp] theorem withOffer_fb (w : Word) : (s.withOffer w).fb = s.fb := rfl
@[simp] theorem withOffer_fbDraw (w : Word) : (s.withOffer w).fbDraw = s.fbDraw := rfl
@[simp] theorem withOffer_offers (w : Word) : (s.withOffer w).offers = w :: s.offers := rfl
@[simp] theorem withOffer_inputs (w : Word) : (s.withOffer w).inputs = EdgeInput.quiet :: s.inputs := rfl

/-! recording an illegal word (R171): the fields it never writes -/

@[simp] theorem raiseIllegal_phase (c : IllegalCause) (w : Word) : (s.raiseIllegal c w).phase = s.phase := by
  unfold State.raiseIllegal; split <;> rfl
@[simp] theorem raiseIllegal_sat (c : IllegalCause) (w : Word) : (s.raiseIllegal c w).sat = s.sat := by
  unfold State.raiseIllegal; split <;> rfl
@[simp] theorem raiseIllegal_val (c : IllegalCause) (w : Word) : (s.raiseIllegal c w).val = s.val := by
  unfold State.raiseIllegal; split <;> rfl
@[simp] theorem raiseIllegal_res (c : IllegalCause) (w : Word) : (s.raiseIllegal c w).res = s.res := by
  unfold State.raiseIllegal; split <;> rfl
@[simp] theorem raiseIllegal_fb (c : IllegalCause) (w : Word) : (s.raiseIllegal c w).fb = s.fb := by
  unfold State.raiseIllegal; split <;> rfl
@[simp] theorem raiseIllegal_fbDraw (c : IllegalCause) (w : Word) : (s.raiseIllegal c w).fbDraw = s.fbDraw := by
  unfold State.raiseIllegal; split <;> rfl
@[simp] theorem raiseIllegal_offers (c : IllegalCause) (w : Word) : (s.raiseIllegal c w).offers = s.offers := by
  unfold State.raiseIllegal; split <;> rfl
@[simp] theorem raiseIllegal_inputs (c : IllegalCause) (w : Word) : (s.raiseIllegal c w).inputs = s.inputs := by
  unfold State.raiseIllegal; split <;> rfl

/-- R171: after an illegal word ILL is 1, whatever it was. -/
@[simp] theorem raiseIllegal_ill (c : IllegalCause) (w : Word) : (s.raiseIllegal c w).ill = true := by
  unfold State.raiseIllegal; split <;> simp_all

/-- R174: the first error stays. -/
theorem raiseIllegal_of_ill (c : IllegalCause) (w : Word) (h : s.ill = true) : s.raiseIllegal c w = s := by
  simp [State.raiseIllegal, h]

/-- R171: the first error is recorded. -/
theorem raiseIllegal_of_not_ill (c : IllegalCause) (w : Word) (h : s.ill = false) :
    s.raiseIllegal c w = { s with ill := true, cause := c.code, errcmd := w } := by
  simp [State.raiseIllegal, h]

end Sys2Proof.Machine
end

