-- ==== Sys2Proof/Laws/Memory.lean ====
section
/-! SUPPORT. Laws/Memory.lean: reading after writing, the canonical form and the framebuffer's range, for bytes and for
pixels. -/

namespace Sys2Proof.Machine

/-! ### Bytes -/

theorem read?_append (m n : Memory) (a : Nat) :
    Memory.read? (m ++ n) a = (Memory.read? m a).or (Memory.read? n a) := by
  induction m with
  | nil => simp [Memory.read?]
  | cons c m ih =>
    obtain ⟨b, v⟩ := c
    by_cases h : b = a
    · simp [Memory.read?, h]
    · simpa [Memory.read?, h] using ih

/-- A filter by address keeps or hides an address as a whole. -/
theorem read?_filter (m : Memory) (p : Nat → Bool) (a : Nat) :
    Memory.read? (m.filter (fun c => p c.1)) a = if p a then Memory.read? m a else none := by
  induction m with
  | nil => simp [Memory.read?]
  | cons c m ih =>
    obtain ⟨b, v⟩ := c
    by_cases h : b = a
    · subst h
      cases hp : p b <;> simp_all [Memory.read?]
    · cases hp : p b <;> simp_all [Memory.read?]

theorem read?_cellsFrom (bs : List Byte) (b a : Nat) :
    Memory.read? (cellsFrom b bs) a = if b ≤ a then bs[a - b]? else none := by
  induction bs generalizing b with
  | nil => simp [cellsFrom, Memory.read?]
  | cons x bs ih =>
    rw [cellsFrom, Memory.read?, ih]
    by_cases h : b = a
    · simp [h]
    · by_cases h' : b ≤ a
      · have h1 : b + 1 ≤ a := by omega
        have h2 : a - b = (a - (b + 1)) + 1 := by omega
        simp [h, h', h1, h2]
      · have h1 : ¬ b + 1 ≤ a := by omega
        simp [h, h', h1]

/-- Reading after a store: the stored bytes inside, what was there outside. -/
theorem read?_writeBytes (m : Memory) (b : Nat) (bs : List Byte) (a : Nat) :
    Memory.read? (m.writeBytes b bs) a =
      if b ≤ a ∧ a < b + bs.length then bs[a - b]? else Memory.read? m a := by
  have h1 := read?_filter m (fun n => decide (n < b)) a
  have h2 := read?_filter m (fun n => decide (b + bs.length ≤ n)) a
  simp only [decide_eq_true_eq] at h1 h2
  rw [Memory.writeBytes, read?_append, read?_append, h1, h2, read?_cellsFrom]
  by_cases hlo : a < b
  · have e1 : ¬ b ≤ a := by omega
    have e2 : ¬ b + bs.length ≤ a := by omega
    simp [hlo, e1, e2]
  · by_cases hhi : b + bs.length ≤ a
    · have e1 : b ≤ a := by omega
      have e2 : ¬ a < b + bs.length := by omega
      have e3 : bs[a - b]? = none := by simp; omega
      simp [hlo, hhi, e1, e2, e3]
    · have e1 : b ≤ a := by omega
      have e2 : a < b + bs.length := by omega
      simp [hlo, hhi, e1, e2]

/-! ### The canonical form and the framebuffer's range -/

theorem mem_cellsFrom {c : Host.Cell} {bs : List Byte} {b : Nat} (h : c ∈ cellsFrom b bs) :
    b ≤ c.1 ∧ c.1 < b + bs.length := by
  induction bs generalizing b with
  | nil => simp [cellsFrom] at h
  | cons x bs ih =>
    rcases List.mem_cons.1 h with rfl | h
    · simp
    · have := ih h
      simp only [List.length_cons]
      omega

theorem wf_cellsFrom (b : Nat) (bs : List Byte) : Memory.wf (cellsFrom b bs) := by
  induction bs generalizing b with
  | nil => exact List.Pairwise.nil
  | cons x bs ih =>
    refine List.Pairwise.cons (fun c hc => ?_) (ih (b + 1))
    exact (mem_cellsFrom hc).1

theorem mem_writeBytes {m : Memory} {c : Host.Cell} {b : Nat} {bs : List Byte} :
    c ∈ m.writeBytes b bs ↔
      (c ∈ m ∧ c.1 < b) ∨ c ∈ cellsFrom b bs ∨ (c ∈ m ∧ b + bs.length ≤ c.1) := by
  simp [Memory.writeBytes]

/-- Every store keeps the canonical form. -/
theorem wf_writeBytes {m : Memory} (h : m.wf) (b : Nat) (bs : List Byte) : (m.writeBytes b bs).wf := by
  have hf : ∀ p : Host.Cell → Bool, Memory.wf (m.filter p) := fun p => h.sublist List.filter_sublist
  rw [Memory.writeBytes, List.append_assoc]
  refine List.pairwise_append.2 ⟨hf _, ?_, ?_⟩
  · refine List.pairwise_append.2 ⟨wf_cellsFrom b bs, hf _, fun x hx y hy => ?_⟩
    have h1 := mem_cellsFrom hx
    have h2 := (List.mem_filter.1 hy).2
    simp only [decide_eq_true_eq] at h2
    omega
  · intro x hx y hy
    have h1 := (List.mem_filter.1 hx).2
    simp only [decide_eq_true_eq] at h1
    rcases List.mem_append.1 hy with hy | hy
    · have := (mem_cellsFrom hy).1
      omega
    · have h2 := (List.mem_filter.1 hy).2
      simp only [decide_eq_true_eq] at h2
      omega

/-- A store inside the framebuffer keeps every listed byte inside it. -/
theorem inFramebuffer_writeBytes {m : Memory} (h : m.InFramebuffer) {b : Nat} {bs : List Byte}
    (hlo : hsvfill.fbBase ≤ b) (hhi : b + bs.length ≤ fbEnd hsvfill) :
    (m.writeBytes b bs).InFramebuffer := by
  intro c hc
  rcases mem_writeBytes.1 hc with ⟨hm, -⟩ | hm | ⟨hm, -⟩
  · exact h c hm
  · have := mem_cellsFrom hm
    omega
  · exact h c hm

/-- A list with nothing in it is canonical and inside the framebuffer. -/
theorem wf_nil : Memory.wf [] := List.Pairwise.nil

theorem inFramebuffer_nil : Memory.InFramebuffer [] := fun _ h => nomatch h

/-! ### Pixels -/

@[simp] theorem pixelBytes_length (e : Endian) (p : Pixel) : (pixelBytes e p).length = 2 := by
  cases e <;> rfl

/-- A pixel's bytes give the pixel back, in either byte order. -/
theorem pixelOfBytes_pixelBytes (e : Endian) (p : Pixel) :
    pixelOfBytes e ((pixelBytes e p)[0]!) ((pixelBytes e p)[1]!) = p := by
  cases e <;>
  · refine BitVec.eq_of_getLsbD_eq fun i hi => ?_
    simp only [pixelOfBytes, pixelBytes, List.getElem!_cons_zero, List.getElem!_cons_succ,
      BitVec.getLsbD_append, BitVec.getLsbD_extractLsb']
    by_cases h : i < 8
    · simp [h]
    · have h1 : 8 + (i - 8) = i := by omega
      have h2 : i - 8 < 8 := by omega
      simp [h, h1, h2]

@[simp] theorem flatMap_pixelBytes_length (e : Endian) (ps : List Pixel) :
    (ps.flatMap (pixelBytes e)).length = 2 * ps.length := by
  induction ps with
  | nil => rfl
  | cons p ps ih => simp [ih]; omega

/-- The two bytes of pixel `i` in a run of pixels. -/
theorem getElem?_flatMap_pixelBytes (e : Endian) (ps : List Pixel) (i : Nat) (p : Pixel) (h : ps[i]? = some p) :
    (ps.flatMap (pixelBytes e))[2 * i]? = some ((pixelBytes e p)[0]!) ∧
    (ps.flatMap (pixelBytes e))[2 * i + 1]? = some ((pixelBytes e p)[1]!) := by
  induction ps generalizing i with
  | nil => simp at h
  | cons q ps ih =>
    obtain ⟨b0, b1, hq⟩ : ∃ b0 b1, pixelBytes e q = [b0, b1] := by cases e <;> exact ⟨_, _, rfl⟩
    cases i with
    | zero =>
      simp only [List.getElem?_cons_zero, Option.some.injEq] at h
      subst h
      simp [hq]
    | succ i =>
      have := ih i (by simpa using h)
      simp only [List.flatMap_cons, hq, show 2 * (i + 1) = 2 * i + 1 + 1 from by omega]
      simpa using this

/-- The bytes after consecutive pixels are written. -/
theorem byteAt_writePixels (s : State) (i : Nat) (ps : List Pixel) (a : Nat)
    (h : a < fbAddr hsvfill i ∨ fbAddr hsvfill (i + ps.length) ≤ a) :
    (s.writePixels i ps).byteAt a = s.byteAt a := by
  have : ¬ (fbAddr hsvfill i ≤ a ∧ a < fbAddr hsvfill i + 2 * ps.length) := by
    simp only [fbAddr] at h ⊢
    omega
  simp only [State.byteAt, writePixels_fb, writePixels_fbDraw, read?_writeBytes, flatMap_pixelBytes_length, this,
    if_false]

/-- The pixel after consecutive pixels are written: the one written there inside the run. -/
theorem pixelAt_writePixels_inside (s : State) (i : Nat) (ps : List Pixel) (j : Nat) (p : Pixel)
    (h : ps[j]? = some p) : (s.writePixels i ps).pixelAt (i + j) = p := by
  have hj : j < ps.length := (List.getElem?_eq_some_iff.1 h).1
  obtain ⟨h0, h1⟩ := getElem?_flatMap_pixelBytes hsvfill.fbEndian ps j p h
  have a0 : fbAddr hsvfill (i + j) - fbAddr hsvfill i = 2 * j := by simp only [fbAddr]; omega
  have a1 : fbAddr hsvfill (i + j) + 1 - fbAddr hsvfill i = 2 * j + 1 := by simp only [fbAddr]; omega
  have c0 : fbAddr hsvfill i ≤ fbAddr hsvfill (i + j) ∧
      fbAddr hsvfill (i + j) < fbAddr hsvfill i + 2 * ps.length := by simp only [fbAddr]; omega
  have c1 : fbAddr hsvfill i ≤ fbAddr hsvfill (i + j) + 1 ∧
      fbAddr hsvfill (i + j) + 1 < fbAddr hsvfill i + 2 * ps.length := by simp only [fbAddr]; omega
  rw [← pixelOfBytes_pixelBytes hsvfill.fbEndian p]
  simp only [State.pixelAt, State.memRead, State.byteAt, writePixels_fb, writePixels_fbDraw, read?_writeBytes,
    flatMap_pixelBytes_length, c0, c1, and_self, if_true, a0, a1, h0, h1, Option.getD_some]

/-- The pixel after consecutive pixels are written: as before outside the run. -/
theorem pixelAt_writePixels_outside (s : State) (i : Nat) (ps : List Pixel) (j : Nat)
    (h : j < i ∨ i + ps.length ≤ j) : (s.writePixels i ps).pixelAt j = s.pixelAt j := by
  have h0 := byteAt_writePixels s i ps (fbAddr hsvfill j) (by simp only [fbAddr]; omega)
  have h1 := byteAt_writePixels s i ps (fbAddr hsvfill j + 1) (by simp only [fbAddr]; omega)
  simp only [State.pixelAt, State.memRead, h0, h1]

end Sys2Proof.Machine
end

