-- ==== Sys2Proof/Laws/Render.lean ====
section
/-! SUPPORT. Laws/Render.lean: the converter's values before they are narrowed, the row FILL builds, and what FILL,
REPL and FRAME's step B do to pixels and bytes. -/

namespace Sys2Proof.Machine

/-! ### The configuration of this hardware -/

@[simp] theorem hsvfill_width : hsvfill.width = 240 := rfl
@[simp] theorem hsvfill_height : hsvfill.height = 160 := rfl
@[simp] theorem hsvfill_fbBase : hsvfill.fbBase = 0x06000000 := rfl
@[simp] theorem hsvfill_fbEndian : hsvfill.fbEndian = .little := rfl
@[simp] theorem hsvfill_pack : hsvfill.pack = packBgr := rfl

/-- The lookups of R101 are division and remainder by 6. -/
theorem regionOf_hsvfill (h : Channel) : regionOf hsvfill h = h.toNat / 6 := by
  revert h; decide

theorem offsetOf_hsvfill (h : Channel) : offsetOf hsvfill h = 6 * (h.toNat % 6) := by
  revert h; decide

/-! ### Spans -/

theorem spanStart_mono (c : Config) {j k : Nat} (h : j ≤ k) : spanStart c j ≤ spanStart c k := by
  have hm := Nat.mul_le_mul_right c.width h
  unfold spanStart
  cases c.spanRounding <;> simp only <;> omega

theorem spanStart_add_width (c : Config) (k : Nat) : spanStart c k + spanWidth c k = spanStart c (k + 1) := by
  have := spanStart_mono c (Nat.le_add_right k 1)
  unfold spanWidth
  omega

/-- The row's first `n` hue steps, laid end to end. -/
theorem length_steps (c : Config) (f : Nat → Pixel) (n : Nat) :
    ((List.range n).flatMap (fun k => List.replicate (spanWidth c k) (f k))).length
      = spanStart c n - spanStart c 0 := by
  induction n with
  | zero => simp
  | succ n ih =>
    have h1 := spanStart_mono c (Nat.zero_le n)
    have h2 := spanStart_add_width c n
    rw [List.range_succ, List.flatMap_append, List.length_append, ih]
    simp only [List.flatMap_cons, List.flatMap_nil, List.append_nil, List.length_replicate]
    omega

/-- A column inside the span of step `k` shows step `k`. -/
theorem getElem?_steps (c : Config) (f : Nat → Pixel) (n k x : Nat) (hk : k < n)
    (h0 : spanStart c k ≤ x) (h1 : x < spanStart c (k + 1)) :
    ((List.range n).flatMap (fun k => List.replicate (spanWidth c k) (f k)))[x - spanStart c 0]? = some (f k) := by
  induction n with
  | zero => omega
  | succ n ih =>
    have m0 := spanStart_mono c (Nat.zero_le k)
    have hlen := length_steps c f n
    rw [List.range_succ, List.flatMap_append]
    by_cases hkn : k < n
    · have m1 := spanStart_mono c (show k + 1 ≤ n from hkn)
      rw [List.getElem?_append_left (by omega)]
      exact ih hkn
    · obtain rfl : k = n := by omega
      have hw := spanStart_add_width c k
      rw [List.getElem?_append_right (by omega)]
      simp only [List.flatMap_cons, List.flatMap_nil, List.append_nil, List.getElem?_replicate]
      rw [if_pos (by omega)]

/-- The row is one pixel a column wide. -/
theorem rowPixels_length (c : Config) (sat val : Channel) :
    (rowPixels c sat val).length = spanStart c 32 - spanStart c 0 :=
  length_steps c (pix c sat val) 32

@[simp] theorem rowPixels_hsvfill_length (sat val : Channel) : (rowPixels hsvfill sat val).length = 240 := by
  rw [rowPixels_length]; rfl

/-! ### REPL's copies -/

theorem flatten_replicate_length {α : Type} (n : Nat) (l : List α) :
    (List.replicate n l).flatten.length = n * l.length := by
  simp

theorem getElem?_flatten_replicate {α : Type} (n : Nat) (l : List α) (y x : Nat) (hy : y < n) (hx : x < l.length) :
    (List.replicate n l).flatten[y * l.length + x]? = l[x]? := by
  induction n generalizing y with
  | zero => omega
  | succ n ih =>
    rw [List.replicate_succ, List.flatten_cons]
    cases y with
    | zero => rw [Nat.zero_mul, Nat.zero_add, List.getElem?_append_left hx]
    | succ y =>
      have e : (y + 1) * l.length + x - l.length = y * l.length + x := by
        rw [Nat.succ_mul]; omega
      rw [List.getElem?_append_right (by rw [Nat.succ_mul]; omega), e]
      exact ih y (by omega)

@[simp] theorem rowZero_length (s : State) : s.rowZero.length = 240 := by
  simp [State.rowZero]

@[simp] theorem replPixels_length (s : State) :
    (List.replicate (hsvfill.height - 1) s.rowZero).flatten.length = 38160 := by
  rw [flatten_replicate_length]; simp

/-! ### What the bodies do to bytes and pixels -/

/-- FILL leaves every byte outside row 0. -/
theorem byteAt_fillBody (s : State) (a : Nat) (h : a < fbAddr hsvfill 0 ∨ fbAddr hsvfill 240 ≤ a) :
    s.fillBody.byteAt a = s.byteAt a :=
  byteAt_writePixels s 0 _ a (by simpa using h)

/-- REPL leaves every byte outside rows 1 to 159. -/
theorem byteAt_replBody (s : State) (a : Nat) (h : a < fbAddr hsvfill 240 ∨ fbAddr hsvfill 38400 ≤ a) :
    s.replBody.byteAt a = s.byteAt a :=
  byteAt_writePixels s hsvfill.width _ a (by simpa using h)

/-- FILL gives a column of row 0 the pixel of the hue step it belongs to. -/
theorem pixelAt_fillBody_inside (s : State) (k x : Nat) (hk : k < 32) (h0 : spanStart hsvfill k ≤ x)
    (h1 : x < spanStart hsvfill (k + 1)) : s.fillBody.pixelAt x = pix hsvfill s.sat s.val k := by
  have h := getElem?_steps hsvfill (pix hsvfill s.sat s.val) 32 k x hk h0 h1
  have := pixelAt_writePixels_inside s 0 _ x _ h
  rwa [Nat.zero_add] at this

theorem pixelAt_fillBody_outside (s : State) (i : Nat) (h : 240 ≤ i) : s.fillBody.pixelAt i = s.pixelAt i :=
  pixelAt_writePixels_outside s 0 _ i (by simpa using h)

/-- REPL leaves row 0. -/
theorem pixelAt_replBody_rowZero (s : State) (x : Nat) (hx : x < 240) : s.replBody.pixelAt x = s.pixelAt x :=
  pixelAt_writePixels_outside s hsvfill.width _ x (Or.inl hx)

/-- REPL gives row `y + 1` row 0's pixels. -/
theorem pixelAt_replBody_row (s : State) (x y : Nat) (hx : x < 240) (hy : y < 159) :
    s.replBody.pixelAt ((y + 1) * 240 + x) = s.pixelAt x := by
  have h := getElem?_flatten_replicate (hsvfill.height - 1) s.rowZero y x hy (by simpa using hx)
  have e : s.rowZero[x]? = some (s.pixelAt x) := by
    simp [State.rowZero, hx]
  rw [e, rowZero_length] at h
  have := pixelAt_writePixels_inside s hsvfill.width _ (y * 240 + x) _ h
  rw [← this]
  congr 1
  simp only [hsvfill_width]
  omega

/-! ### The bodies keep the memory's form -/

theorem wf_fillBody {s : State} (h : s.fb.wf) : s.fillBody.fb.wf := wf_writeBytes h _ _

theorem wf_replBody {s : State} (h : s.fb.wf) : s.replBody.fb.wf := wf_writeBytes h _ _

theorem inFramebuffer_fillBody {s : State} (h : s.fb.InFramebuffer) : s.fillBody.fb.InFramebuffer :=
  inFramebuffer_writeBytes h (by simp [fbAddr]) (by
    rw [flatMap_pixelBytes_length, rowPixels_hsvfill_length]; decide)

theorem inFramebuffer_replBody {s : State} (h : s.fb.InFramebuffer) : s.replBody.fb.InFramebuffer :=
  inFramebuffer_writeBytes h (by simp [fbAddr]) (by
    rw [flatMap_pixelBytes_length, replPixels_length]; decide)

end Sys2Proof.Machine
end

