-- ==== Sys2Proof/Laws/Step.lean ====
section
/-! SUPPORT. Laws/Step.lean: what a rising edge can do, case by case, for the later proofs to cite instead of unfolding
the step. -/

namespace Sys2Proof.Machine

variable (s : State)

/-! ### Each case of the edge -/

theorem step_of_rst (h : s.edge.rst = true) : step s = .next s.latch.resetEdge := by
  simp [step, State.clockEdge, h]

theorem step_of_idle_empty (hr : s.edge.rst = false) (hp : s.phase = .idle) (ho : s.latch.offers = []) :
    step s = .next s.latch := by
  simp only [step, State.clockEdge, hr, hp, ho, Bool.false_eq_true, if_false, if_true]

theorem step_of_idle_word (w : Word) (ws : List Word) (hr : s.edge.rst = false) (hp : s.phase = .idle)
    (ho : s.latch.offers = w :: ws) : step s = State.acceptWord { s.latch with offers := ws } w := by
  simp only [step, State.clockEdge, hr, hp, ho, Bool.false_eq_true, if_false, if_true]

theorem step_of_waiting_vblank (hr : s.edge.rst = false) (hp : s.phase ≠ .idle) (hv : s.edge.vblank = true) :
    step s = .next s.latch.vblankEvent := by
  simp [step, State.clockEdge, hr, hp, hv]

theorem step_of_waiting_quiet (hr : s.edge.rst = false) (hp : s.phase ≠ .idle) (hv : s.edge.vblank = false) :
    step s = .next s.latch := by
  simp [step, State.clockEdge, hr, hp, hv]

theorem acceptWord_of_command (w : Word) (i : Instr) (h : decode w = .command i) :
    s.acceptWord w = exec i s := by
  simp [State.acceptWord, h]

theorem acceptWord_of_illegal (w : Word) (c : IllegalCause) (h : decode w = .illegal c) :
    s.acceptWord w = .next (s.raiseIllegal c w) := by
  simp [State.acceptWord, h]

/-- Every command answers a next state: what that state is, constructor by constructor. -/
theorem exec_cases (i : Instr) :
    (∃ h sv v, i = .conv h sv v ∧ exec i s = .next { s with res := resOf (convert hsvfill h sv v) }) ∨
    (∃ k, i = .keys k ∧ exec i s = .next (s.applyKeys k)) ∨
    (i = .vwait ∧ exec i s = .next { s with phase := .wait }) ∨
    (i = .fill ∧ exec i s = .next s.fillBody) ∨
    (i = .repl ∧ exec i s = .next s.replBody) ∨
    (∃ k, i = .frame k ∧ exec i s = .next { s.applyKeys k with phase := .waitFrame }) := by
  cases i with
  | conv h sv v => exact .inl ⟨h, sv, v, rfl, rfl⟩
  | keys k => exact .inr (.inl ⟨k, rfl, rfl⟩)
  | vwait => exact .inr (.inr (.inl ⟨rfl, rfl⟩))
  | fill => exact .inr (.inr (.inr (.inl ⟨rfl, rfl⟩)))
  | repl => exact .inr (.inr (.inr (.inr (.inl ⟨rfl, rfl⟩))))
  | frame k => exact .inr (.inr (.inr (.inr (.inr ⟨k, rfl, rfl⟩))))

/-- Everything a step can be. -/
theorem step_cases :
    (s.edge.rst = true ∧ step s = .next s.latch.resetEdge) ∨
    (s.edge.rst = false ∧ s.phase = .idle ∧ s.latch.offers = [] ∧ step s = .next s.latch) ∨
    (∃ w ws i, s.edge.rst = false ∧ s.phase = .idle ∧ s.latch.offers = w :: ws ∧ decode w = .command i ∧
      step s = exec i { s.latch with offers := ws }) ∨
    (∃ w ws c, s.edge.rst = false ∧ s.phase = .idle ∧ s.latch.offers = w :: ws ∧ decode w = .illegal c ∧
      step s = .next (State.raiseIllegal { s.latch with offers := ws } c w)) ∨
    (s.edge.rst = false ∧ s.phase ≠ .idle ∧ s.edge.vblank = true ∧ step s = .next s.latch.vblankEvent) ∨
    (s.edge.rst = false ∧ s.phase ≠ .idle ∧ s.edge.vblank = false ∧ step s = .next s.latch) := by
  cases hr : s.edge.rst with
  | true => exact .inl ⟨rfl, step_of_rst s hr⟩
  | false =>
    refine .inr ?_
    by_cases hp : s.phase = .idle
    · cases ho : s.latch.offers with
      | nil => exact .inl ⟨rfl, hp, rfl, step_of_idle_empty s hr hp ho⟩
      | cons w ws =>
        have hs := step_of_idle_word s w ws hr hp ho
        cases hd : decode w with
        | command i => exact .inr (.inl ⟨w, ws, i, rfl, hp, rfl, hd, hs.trans (acceptWord_of_command _ w i hd)⟩)
        | illegal c =>
          exact .inr (.inr (.inl ⟨w, ws, c, rfl, hp, rfl, hd, hs.trans (acceptWord_of_illegal _ w c hd)⟩))
    · cases hv : s.edge.vblank with
      | true => exact .inr (.inr (.inr (.inl ⟨rfl, hp, rfl, step_of_waiting_vblank s hr hp hv⟩)))
      | false => exact .inr (.inr (.inr (.inr ⟨rfl, hp, rfl, step_of_waiting_quiet s hr hp hv⟩)))

/-! ### A vblank event, by PHASE -/

theorem vblankEvent_idle (h : s.phase = .idle) : s.vblankEvent = s := by simp [State.vblankEvent, h]

theorem vblankEvent_wait (h : s.phase = .wait) : s.vblankEvent = { s with phase := .idle } := by
  simp [State.vblankEvent, h]

theorem vblankEvent_waitFrame (h : s.phase = .waitFrame) :
    s.vblankEvent = { s.fillBody.replBody with phase := .idle } := by
  simp [State.vblankEvent, h]

/-! ### Runs -/

theorem run_zero : Host.Core.run Sys2Proof.core 0 s = .next s := rfl

theorem run_succ {t : State} (n : Nat) (h : step s = .next t) :
    Host.Core.run Sys2Proof.core (n + 1) s = Host.Core.run Sys2Proof.core n t := by
  have h' : Sys2Proof.core.step s = .next t := h
  simp only [Host.Core.run, h']

/-- What every step keeps, every run keeps. -/
theorem run_induction {P : State → Prop} (hP : ∀ u v, P u → step u = .next v → P v) (n : Nat) :
    ∀ s t : State, P s → Host.Core.run Sys2Proof.core n s = .next t → P t := by
  induction n with
  | zero => intro s t hs h; cases h; exact hs
  | succ n ih =>
    intro s t hs h
    cases hu : step s with
    | next u => exact ih u t (hP s u hs hu) (run_succ s n hu ▸ h)
    | fault f => cases f
    | refused r =>
      have hu' : Sys2Proof.core.step s = .refused r := hu
      simp [Host.Core.run, hu'] at h

/-! ### During an edge -/

theorem after_of_step {s t : State} (h : step s = .next t) : s.after = t := by simp [State.after, h]

theorem operating_iff : s.operating = true ↔
    (∃ i, s.acceptedCommand = some i) ∨ (s.phase = .waitFrame ∧ s.edge.vblank = true ∧ s.edge.rst = false) := by
  simp [State.operating, Option.isSome_iff_exists, and_assoc]

/-- What a read of a register other than STATUS may return during a step. -/
theorem mem_rdDataDuring {s t : State} (h : step s = .next t) {a : BitVec 2} (ha : a ≠ 0) (w : Word) :
    w ∈ s.rdDataDuring a ↔ w = s.rdData a ∨ w = t.rdData a := by
  rw [State.rdDataDuring, if_neg (fun hc => ha hc.1), after_of_step h]
  simp

/-- What a read of STATUS may return during an operation. -/
theorem mem_rdDataDuring_status {s t : State} (h : step s = .next t) (ho : s.operating = true) (w : Word) :
    w ∈ s.rdDataDuring 0 ↔ w = s.statusWith true ∨ w = t.statusWith true := by
  simp [State.rdDataDuring, ho, after_of_step h]

end Sys2Proof.Machine
end

