-- ==== Sys2Proof/Laws/PerInstr.lean ====
section
/-! SUPPORT. Laws/PerInstr.lean: statements for all commands, one lemma a constructor. TableRow: the word the encoder
gives a command stands in the command's own row of R72's opcode map. -/

namespace Sys2Proof.Laws.TableRow

/-- `(encode i & mask) == match` for the row of `i` (R72). -/
def Statement (i : Instr) : Prop := encode i &&& i.row.mask = i.row.matchBits

theorem conv (h s v : Channel) : Statement (.conv h s v) := by
  refine BitVec.eq_of_getLsbD_eq fun i hi => ?_
  simp only [encode, Instr.row, BitVec.getLsbD_and, BitVec.getLsbD_append]
  interval_cases i <;> simp [BitVec.getLsbD, Nat.testBit_eq_decide_div_mod_eq]

theorem keys (k : Keys) : Statement (.keys k) := by
  obtain ⟨u, d, l, r⟩ := k
  unfold Statement
  cases u <;> cases d <;> cases l <;> cases r <;> decide

theorem vwait : Statement .vwait := by unfold Statement; decide

theorem fill : Statement .fill := by unfold Statement; decide

theorem repl : Statement .repl := by unfold Statement; decide

theorem frame (k : Keys) : Statement (.frame k) := by
  obtain ⟨u, d, l, r⟩ := k
  unfold Statement
  cases u <;> cases d <;> cases l <;> cases r <;> decide

end Sys2Proof.Laws.TableRow
end

