-- ==== Sys2Proof/Laws/Decode.lean ====
section
/-! SUPPORT. Laws/Decode.lean: the fields and words of the encoding, and the registers' words, as numbers; and what the
decoder can answer, opcode by opcode. -/

namespace Sys2Proof

/-! ### Fields and words as numbers -/

theorem toNat_field {m : Nat} (w : BitVec m) (lo n : Nat) :
    (w.extractLsb' lo n).toNat = w.toNat / 2 ^ lo % 2 ^ n := by
  simp [BitVec.extractLsb'_toNat, Nat.shiftRight_eq_div_pow]

theorem toNat_concat {m n : Nat} (a : BitVec m) (b : BitVec n) : (a ++ b).toNat = a.toNat * 2 ^ n + b.toNat := by
  rw [BitVec.toNat_append, ← Nat.shiftLeft_add_eq_or_of_lt b.isLt, Nat.shiftLeft_eq]

/-- Bits 7:4 of format K as a number. -/
def keyNumber (k : Keys) : Nat := 16 * k.right.toNat + 32 * k.left.toNat + 64 * k.up.toNat + 128 * k.down.toNat

theorem keyNumber_lt (k : Keys) : keyNumber k < 256 ∧ keyNumber k % 16 = 0 := by
  obtain ⟨u, d, l, r⟩ := k
  cases u <;> cases d <;> cases l <;> cases r <;> decide

theorem keyNumber_injective {k k' : Keys} (h : keyNumber k = keyNumber k') : k = k' := by
  obtain ⟨u, d, l, r⟩ := k
  obtain ⟨u', d', l', r'⟩ := k'
  simp only [keyNumber] at h
  cases u <;> cases d <;> cases l <;> cases r <;> cases u' <;> cases d' <;> cases l' <;> cases r' <;> simp_all

theorem keyNumber_keysField (w : Word) : keyNumber (keysField w) = w.toNat / 16 % 16 * 16 := by
  have hb : ∀ i, (w.getLsbD i).toNat = w.toNat / 2 ^ i % 2 := by
    intro i
    rw [BitVec.getLsbD, Nat.testBit_eq_decide_div_mod_eq]
    rcases Nat.mod_two_eq_zero_or_one (w.toNat / 2 ^ i) with h | h <;> simp [h]
  simp only [keyNumber, keysField, hb]
  omega

theorem toNat_encode_conv (h s v : Channel) :
    (encode (.conv h s v)).toNat = 1 + 16 * h.toNat + 512 * s.toNat + 16384 * v.toNat := by
  simp only [encode, toNat_concat, BitVec.toNat_ofNat]
  omega

theorem toNat_encode_keys (k : Keys) : (encode (.keys k)).toNat = 2 + keyNumber k := by
  obtain ⟨u, d, l, r⟩ := k
  cases u <;> cases d <;> cases l <;> cases r <;> rfl

theorem toNat_encode_frame (k : Keys) : (encode (.frame k)).toNat = 6 + keyNumber k := by
  obtain ⟨u, d, l, r⟩ := k
  cases u <;> cases d <;> cases l <;> cases r <;> rfl

/-- The 5-bit fields hold nothing above 31 (R71). -/
theorem instr_wf (i : Instr) : i.wf = true := by
  cases i with
  | conv h s v => simp only [Instr.wf, decide_eq_true_eq]; omega
  | _ => rfl

/-- A reserved field that is zero lets the command through, any other makes the word illegal (R74). -/
theorem unlessReserved_of_zero {n : Nat} {rsv : BitVec n} (i : Instr) (h : rsv = 0) :
    unlessReserved rsv i = .command i := if_pos h

theorem unlessReserved_of_ne_zero {n : Nat} {rsv : BitVec n} (i : Instr) (h : rsv ≠ 0) :
    unlessReserved rsv i = .illegal .reservedBits := if_neg h

/-- What the decoder answers, by the number in the opcode field (R76). -/
theorem decode_cases (w : Word) :
    ((opField w).toNat = 1 ∧ decode w = unlessReserved (rsvC w) (.conv (hueField w) (satField w) (valField w))) ∨
    ((opField w).toNat = 2 ∧ decode w = unlessReserved (rsvK w) (.keys (keysField w))) ∨
    ((opField w).toNat = 6 ∧ decode w = unlessReserved (rsvK w) (.frame (keysField w))) ∨
    ((opField w).toNat = 3 ∧ decode w = unlessReserved (rsvN w) .vwait) ∨
    ((opField w).toNat = 4 ∧ decode w = unlessReserved (rsvN w) .fill) ∨
    ((opField w).toNat = 5 ∧ decode w = unlessReserved (rsvN w) .repl) ∨
    (((opField w).toNat = 0 ∨ 7 ≤ (opField w).toNat) ∧ decode w = .illegal .reservedOpcode) := by
  have key : ∀ (o : BitVec 4) (a b c d e f g : Decoded),
      (o.toNat = 1 ∧ (if o = 1 then a else if o = 2 then b else if o = 6 then c else if o = 3 then d
        else if o = 4 then e else if o = 5 then f else g) = a) ∨
      (o.toNat = 2 ∧ (if o = 1 then a else if o = 2 then b else if o = 6 then c else if o = 3 then d
        else if o = 4 then e else if o = 5 then f else g) = b) ∨
      (o.toNat = 6 ∧ (if o = 1 then a else if o = 2 then b else if o = 6 then c else if o = 3 then d
        else if o = 4 then e else if o = 5 then f else g) = c) ∨
      (o.toNat = 3 ∧ (if o = 1 then a else if o = 2 then b else if o = 6 then c else if o = 3 then d
        else if o = 4 then e else if o = 5 then f else g) = d) ∨
      (o.toNat = 4 ∧ (if o = 1 then a else if o = 2 then b else if o = 6 then c else if o = 3 then d
        else if o = 4 then e else if o = 5 then f else g) = e) ∨
      (o.toNat = 5 ∧ (if o = 1 then a else if o = 2 then b else if o = 6 then c else if o = 3 then d
        else if o = 4 then e else if o = 5 then f else g) = f) ∨
      ((o.toNat = 0 ∨ 7 ≤ o.toNat) ∧ (if o = 1 then a else if o = 2 then b else if o = 6 then c else if o = 3 then d
        else if o = 4 then e else if o = 5 then f else g) = g) := by
    intro o a b c d e f g
    have ho := o.isLt
    simp only [← BitVec.toNat_inj]
    generalize o.toNat = n at ho ⊢
    interval_cases n <;> simp
  exact key (opField w) _ _ _ _ _ _ _

end Sys2Proof

namespace Sys2Proof.Machine

/-! ### The words a pixel, RES and SV are -/

theorem toNat_packBgr (r g b : Channel) :
    (packBgr r g b).toNat = r.toNat + g.toNat * 2 ^ 5 + b.toNat * 2 ^ 10 := by
  simp only [packBgr, toNat_concat, BitVec.toNat_ofNat]
  omega

theorem toNat_resOf (x : Rgb) : (resOf x).toNat = x.r.toNat + 32 * x.g.toNat + 1024 * x.b.toNat := by
  simp only [resOf, toNat_concat]
  omega

theorem toNat_svWord (s : State) : s.svWord.toNat = s.sat.toNat + 256 * s.val.toNat := by
  simp only [State.svWord, toNat_concat, BitVec.toNat_ofNat]
  omega

theorem toNat_resWord (s : State) : s.resWord.toNat = s.res.toNat := by
  simp only [State.resWord, toNat_concat, BitVec.toNat_ofNat]
  omega

theorem toNat_statusWith (s : State) (busy : Bool) :
    (s.statusWith busy).toNat = busy.toNat + 2 * s.waiting.toNat + 4 * s.ill.toNat + 8 * s.cause.toNat
      + 32 * s.framePending.toNat := by
  simp only [State.statusWith, toNat_concat, BitVec.toNat_ofNat, BitVec.toNat_ofBool]
  omega

theorem toNat_statusWord (s : State) :
    s.statusWord.toNat = s.busy.toNat + 2 * s.waiting.toNat + 4 * s.ill.toNat + 8 * s.cause.toNat
      + 32 * s.framePending.toNat := toNat_statusWith s s.busy

end Sys2Proof.Machine
end

