-- ==== Sys2Proof/Tests/Slice0.lean ====
section
/-! SUPPORT. Tests/Slice0.lean: the model's own tests. Expected values are the spec's: 95_test_vectors.md (V1 to V11) or
the encodings of 30_encoding.md written out. The last part shows, for each statement with hypotheses, values that meet
them. -/

namespace Sys2Proof.Tests

open Sys2Proof.Machine

/-- The state a step answers. -/
def nextOf : Host.Outcome State Fault Refusal → State
  | .next t => t
  | .fault _ => State.reset
  | .refused _ => State.reset

/-- The reset state with SAT and VAL set. -/
def satVal (sat val : Channel) : State := { State.reset with sat := sat, val := val }

/-- The reset state with one word offered and a quiet edge coming. -/
def offering (w : Word) : State := State.reset.withOffer w

/-! ### Well-formedness (R8, R54, R77) -/

theorem test_hsvfill_legal : hsvfill.legal = true := by decide
theorem test_region_above_7 : ({ hsvfill with regionTab := 8 :: List.replicate 31 0 }).legal = false := by decide
theorem test_region_31_entries : ({ hsvfill with regionTab := List.replicate 31 0 }).legal = false := by decide
theorem test_offset_above_5 : ({ hsvfill with offsetTab := 6 :: List.replicate 31 0 }).legal = false := by decide
theorem test_offset_33_entries : ({ hsvfill with offsetTab := List.replicate 33 0 }).legal = false := by decide
theorem test_width_31 : ({ hsvfill with width := 31 }).legal = false := by decide
theorem test_height_0 : ({ hsvfill with height := 0 }).legal = false := by decide
theorem test_odd_base : ({ hsvfill with fbBase := 0x06000001 }).legal = false := by decide
theorem test_bounds_admitted :
    ({ hsvfill with regionTab := List.replicate 32 7, offsetTab := List.replicate 32 5, width := 32, height := 1 }).legal = true := by
  decide
theorem test_conv_operand_32 :
    assemble (.conv 32 0 0) = none ∧ assemble (.conv 0 32 0) = none ∧ assemble (.conv 0 0 32) = none := by decide
theorem test_instr_wf : (Instr.conv 31 31 31).wf = true := by decide

/-! ### Decoding: words written out from R70's formats, most significant field first -/

theorem test_decode_conv :
    decode (0b0000000000000#13 ++ 0b01010#5 ++ 0b10100#5 ++ 0b11101#5 ++ 0b0001#4) = .command (.conv 29 20 10) := by decide
theorem test_decode_keys :
    decode (0x000000#24 ++ 0b0110#4 ++ 0b0010#4) = .command (.keys { up := true, left := true }) := by decide
theorem test_decode_vwait : decode (0x0000000#28 ++ 0b0011#4) = .command .vwait := by decide
theorem test_decode_fill : decode (0x0000000#28 ++ 0b0100#4) = .command .fill := by decide
theorem test_decode_repl : decode (0x0000000#28 ++ 0b0101#4) = .command .repl := by decide
theorem test_decode_frame :
    decode (0x000000#24 ++ 0b1001#4 ++ 0b0110#4) = .command (.frame { down := true, right := true }) := by decide
/-- V8 D1, D4, D12, D7, D8, D9, D10, D11. -/
theorem test_decode_illegal :
    [0x00000000, 0xFFFFFFF7, 0x0000000A].map decode = List.replicate 3 (.illegal .reservedOpcode) ∧
    [0x000FFFF1, 0x80000004, 0x00000013, 0x00000102, 0x00000106].map decode
      = List.replicate 5 (.illegal .reservedBits) := by decide
theorem test_decodeTableWord : decodeTableWord 32 0x46 = some (.frame { up := true }) := by decide

/-! ### Assembler text (R77) -/

theorem test_parse_conv :
    parseLine ['C', 'O', 'N', 'V', ' ', '0', ',', ' ', '3', '1', ',', '0', 'x', '1', 'F', ' ', '#', ' ', 'r'] =
      some (some (.conv 0 31 31)) := by decide
theorem test_parse_keys :
    parseLine ['K', 'E', 'Y', 'S', ' ', 'u', 'p', '|', 'l', 'e', 'f', 't'] = some (some (.keys [.up, .left])) ∧
    assemble (.keys [.up, .left]) = some 0x00000062 ∧ assemble (.conv 0 31 31) = some 0x0007FE01 := by decide
theorem test_parse_word :
    parseLine ['.', 'w', 'o', 'r', 'd', ' ', '0', 'x', '0', '0', '0', '0', '0', '0', '1', '3'] = some (some (.word 0x13)) ∧
    parseLine ['#', 'x'] = some none ∧ parseLine ['F', 'I', 'L'] = none := by decide

/-! ### Each command, one step -/

/-- R101's table in full: five regions of six hues and one of two. -/
theorem test_tables :
    regionTable = [0,0,0,0,0,0, 1,1,1,1,1,1, 2,2,2,2,2,2, 3,3,3,3,3,3] ++ [4,4,4,4,4,4, 5,5] ∧
    offsetTable = [0,1,2,3,4,5, 0,1,2,3,4,5, 0,1,2,3,4,5, 0,1,2,3,4,5] ++ [0,1,2,3,4,5, 0,1] := by decide
/-- V3 CV8. -/
theorem test_conv_cv8 : (nextOf (step (offering 0x0002A9D1))).rdData 2 = 0x2869 := by decide
/-- V3 CV3: achromatic. -/
theorem test_conv_cv3 : (nextOf (step (offering 0x00044031))).rdData 2 = 0x4631 := by decide
/-- V4 K4: up selected and blocked, down not tried. -/
theorem test_keys_k4 : (nextOf (execKeys { up := true, down := true } (satVal 31 0))).rdData 1 = 0x001F := by decide
/-- V4 K8 and K5: right raises VAL, down lowers SAT. -/
theorem test_keys_k8_k5 :
    (nextOf (execKeys { right := true } (satVal 5 5))).rdData 1 = 0x0605 ∧
    (nextOf (execKeys { down := true, left := true } (satVal 5 5))).rdData 1 = 0x0504 := by decide
/-- V8 D17. -/
theorem test_vwait : (nextOf (step (offering 0x3))).rdData 0 = 0x0003 := by decide
/-- V5 F1: the row's first and last pixel after FILL from reset. -/
theorem test_fill_f1 :
    (nextOf (step (offering 0x4))).pixelAt 0 = 0x001F ∧ (nextOf (step (offering 0x4))).pixelAt 7 = 0x00DF := by decide
/-- V5 F4: SAT = 10, VAL = 5, step 1 (columns 7 to 14). -/
theorem test_fill_f4 : (nextOf (execFill (satVal 10 5))).pixelAt 14 = 0x219A := by decide
/-- V10: a copied pixel equals row 0's. -/
theorem test_repl : (nextOf (execRepl ((State.reset.memWrite 0x06000000 0x641F)))).pixelAt 240 = 0x641F := by decide
/-- V8 D20: step A of FRAME. -/
theorem test_frame_step_a :
    (nextOf (step (offering 0xF6))).rdData 0 = 0x0023 ∧ (nextOf (step (offering 0xF6))).rdData 1 = 0x0001 := by decide
/-- P3: step B at the vblank event. -/
theorem test_frame_step_b :
    (nextOf (step { satVal 1 0 with phase := .waitFrame, inputs := [{ vblank := true }] })).pixelAt 7 = 0x00FF := by decide
/-- V8 D6, then D4 with ILL set already: the first error stays. -/
theorem test_illegal :
    (nextOf (step (offering 0x00080001))).rdData 0 = 0x0014 ∧
    (nextOf (step (State.withOffer (nextOf (step (offering 0x00080001))) 0xFFFFFFF7))).rdData 3 = 0x00080001 := by decide
/-- V9 W4: a vblank event in the acceptance cycle does not end the wait. -/
theorem test_vblank_at_acceptance :
    (nextOf (step { State.reset with inputs := [{ vblank := true, offer := some 0x3 }] })).phase = .wait := by decide
/-- V9 W10: a reset during a FRAME's wait. -/
theorem test_reset_in_wait :
    (nextOf (step { satVal 1 0 with phase := .waitFrame, inputs := [{ rst := true, vblank := true }] })).rdData 1 = 0 := by
  decide
/-- V7: pixel (120, 80) is at 0x060096F0, and FILL's last access at 0x060001DE. -/
theorem test_addresses :
    fbAddr hsvfill (pixelIndex hsvfill 120 80) = 0x060096F0 ∧
    (fbAddr hsvfill 239, fbEnd hsvfill) = (0x060001DE, 0x06012C00) := by decide
/-- V6: spans and columns for both roundings. -/
theorem test_spans :
    [1, 2, 31].map (spanStart hsvfill) = [7, 15, 232] ∧
    [1, 3, 31].map (spanStart { hsvfill with spanRounding := .ceil }) = [8, 23, 233] ∧
    [7, 127, 239].map (hueOfColumn hsvfill) = [1, 17, 31] ∧
    [7, 127, 232].map (hueOfColumn { hsvfill with spanRounding := .ceil }) = [0, 16, 30] := by decide

/-! ### Values that meet the statements' hypotheses -/

theorem witness_DecodeAndEncodeAgree :
    (Instr.conv 31 0 31).wf = true ∧ decode (encode (.conv 31 0 31)) = .command (.conv 31 0 31) := by decide
theorem witness_OpcodeMapDecidesTheCommand :
    Instr.row (.keys Keys.none) ∈ opcodeMap ∧ (Instr.row (.keys Keys.none)).covers 0xF2 = true := by decide
theorem witness_AssembledLinesDecode :
    ((31 ≤ 31 ∧ 0 ≤ 31 ∧ 31 ≤ 31) ∧ assemble (.conv 31 0 31) = some 0x0007C1F1) ∧ (31 < 32 ∨ 31 < 0 ∨ 31 < 0) := by decide
/-- A legal configuration beside this hardware's: CEIL, and OFFSET_TAB entries all 5. -/
def ceilConfig : Config := { hsvfill with spanRounding := .ceil, offsetTab := List.replicate 32 5 }
theorem witness_NoConverterSubtractionGoesBelowZero :
    ceilConfig.legal = true ∧ offsetOf ceilConfig 31 = 30 ∧ ceilConfig.offsetTab.length = 32 ∧
    (6 :: List.replicate 31 0).length = 32 ∧ 6 ∈ 6 :: List.replicate 31 0 ∧ 5 < 6 := by decide
theorem witness_ZeroSaturationIsAchromatic : 1 ≤ (1 : Channel).toNat ∧ interP 0 1 = 0 := by decide
theorem witness_RegionSelectsTheChannels : (1 : Channel) ≠ 0 ∧ 5 ≤ 7 ∧ selectRgb 7 1 2 3 4 = ⟨1, 2, 3⟩ := by decide
theorem witness_ConverterLaws :
    1 ≤ (1 : Channel).toNat ∧ [0, 6, 12, 18, 24, 30].map (fun h => regionOf hsvfill h) = [0, 1, 2, 3, 4, 5] := by decide
theorem witness_ConvLatchesTheConvertedTriple :
    (1 : Channel) ≠ 0 ∧ ([5, 6, 17, 23, 29, 31] : List Channel).map (fun h => h.toNat / 6) = [0, 1, 2, 3, 4, 5] := by decide
theorem witness_UpdateSaturatesAtTheBounds :
    ({ up := true } : Keys).up = true ∧ ({ down := true } : Keys).down = true ∧ ({ left := true } : Keys).left = true ∧
    ({ right := true } : Keys).right = true ∧ update 31 7 { up := true, down := true } = (31, 7) ∧
    update 0 7 { down := true } = (0, 7) ∧ update 7 0 { left := true } = (7, 0) ∧
    update 7 31 { right := true } = (7, 31) := by decide
theorem witness_HoldingUpRaisesSatToTheBound :
    let s := State.resetWith (List.replicate 32 (encode (.keys { up := true }))) []
    s.phase = .idle ∧ s.inputs = [] ∧ s.offers = List.replicate 32 (encode (.keys { up := true })) := by decide
theorem witness_ColumnsBelongToTheirHueSteps :
    hsvfill.spanRounding = .floor ∧ ceilConfig.spanRounding = .ceil ∧ ceilConfig.legal = true ∧ 239 < ceilConfig.width ∧
    31 < 32 ∧ spanStart hsvfill 31 ≤ 232 ∧ 239 < spanStart hsvfill 32 := by
  decide
theorem witness_SpansTileTheRow : hsvfill.legal = true ∧ 0 < hsvfill.width ∧ 239 < hsvfill.width ∧ 31 < 32 := by decide
theorem witness_FillBuildsRowZero : 0 < 240 ∧ 239 < 240 ∧ nextOf (exec .fill State.reset) ≠ State.reset := by
  refine ⟨by decide, by decide, fun h => ?_⟩
  have := congrArg (fun s => s.fb.read? (fbAddr hsvfill 0)) h
  revert this; decide
theorem witness_ReplCopiesRowZeroToEveryRow :
    0 < 240 ∧ 239 < 240 ∧ 0 < 160 ∧ 159 < 160 ∧ pixelIndex hsvfill 239 159 = 38399 := by decide
theorem witness_RegisterCommandsStoreNothing :
    ∀ i ∈ [Instr.conv 1 2 3, .keys Keys.none, .vwait, .frame Keys.none], i ≠ .fill ∧ i ≠ .repl := by decide
theorem witness_FillAndReplAreIdempotent :
    (∃ t u, exec .fill State.reset = .next t ∧ exec .fill t = .next u) ∧
    (∃ t u, exec .repl State.reset = .next t ∧ exec .repl t = .next u) := ⟨⟨_, _, rfl, rfl⟩, ⟨_, _, rfl, rfl⟩⟩
theorem witness_AccessesStayInTheFramebuffer :
    (⟨true, 0x06000000, 0x001F⟩ : FbAccess) ∈ (offering 0x4).edgeAccesses := by decide
theorem witness_PixelsAreLittleEndian :
    (0x06000002 : Nat) ≠ fbAddr hsvfill 0 ∧ (0x06000002 : Nat) ≠ fbAddr hsvfill 0 + 1 := by decide
theorem witness_StepRunsTheAcceptedCommand :
    (offering 0x4).edge.rst = false ∧ (offering 0x4).phase = .idle ∧
    (offering 0x4).offers ++ (offering 0x4).edge.offer.toList = [0x4] ∧ decode 0x4 = .command .fill := by decide
/-- Both clauses: nothing recorded yet, and an error recorded before. -/
theorem witness_StepRecordsTheFirstIllegalWord :
    ∀ s ∈ [offering 0xF, { offering 0xF with ill := true, cause := 1, errcmd := 0x7 }],
      s.edge.rst = false ∧ s.phase = .idle ∧ s.offers ++ s.edge.offer.toList = [0xF] ∧
      decode 0xF = .illegal .reservedOpcode := by decide
theorem witness_TheFirstErrorSticks :
    ∃ t, ({ offering 0x13 with ill := true, cause := 1, errcmd := 0xF } : State).ill = true ∧
      (∀ e ∈ (offering 0x13).inputs, e.rst = false) ∧
      Host.Core.run Sys2Proof.core 1 ({ offering 0x13 with ill := true, cause := 1, errcmd := 0xF } : State) = .next t :=
  ⟨_, rfl, by decide, rfl⟩
/-- A waiting block with one edge coming. -/
def waitingAt (p : Phase) (e : EdgeInput) : State := { State.reset with phase := p, inputs := [e] }
/-- Every clause: a reset, an idle block that accepts VWAIT or FRAME, a waiting block with and without a vblank event. -/
theorem witness_PhaseTransitionsAreExact :
    (waitingAt .wait { rst := true }).edge.rst = true ∧
    (offering 0x3).acceptedCommand = some .vwait ∧ (offering 0x16).acceptedCommand = some (.frame { right := true }) ∧
    ((offering 0x3).edge.rst = false ∧ (offering 0x3).phase = .idle) ∧
    ((waitingAt .wait { vblank := true }).edge.vblank = true ∧ (waitingAt .wait { vblank := true }).phase ≠ .idle) ∧
    ((waitingAt .wait {}).edge.vblank = false ∧ (waitingAt .wait {}).edge.rst = false) ∧
    ((waitingAt .waitFrame { vblank := true }).phase = .waitFrame ∧
      (waitingAt .waitFrame { vblank := true }).edge.vblank = true) := by decide
theorem witness_ResetEdgeRestoresTheRegisters :
    (waitingAt .waitFrame { rst := true, vblank := true, offer := some 0x4 }).edge.rst = true := by decide
theorem witness_AWaitingBlockAcceptsNothing :
    (waitingAt .wait { offer := some 0x4 }).phase ≠ .idle ∧ (waitingAt .wait { offer := some 0x4 }).edge.rst = false ∧
    (waitingAt .wait { offer := some 0x4 }).edge.vblank = false := by decide
theorem witness_OfferedWordsAreNotLost : ∃ t, step (waitingAt .wait { offer := some 0x4 }) = .next t := ⟨_, rfl⟩
theorem witness_VwaitEndsAtTheFirstVblank :
    let s : State := { State.reset with phase := .wait, inputs := [{ offer := some 0x4 }] ++ { vblank := true } :: [] }
    s.phase = .wait ∧ s.inputs = [{ offer := some 0x4 }] ++ { vblank := true } :: [] ∧
    ({ offer := some 0x4 } : EdgeInput).rst = false ∧ ({ offer := some 0x4 } : EdgeInput).vblank = false := by decide
theorem witness_FrameRendersItsOwnStateAtTheFirstVblank :
    let es : List EdgeInput := [{ offer := some 0x4 }, {}]
    (∃ u, exec (.frame { up := true }) (State.resetWith [] (es ++ { vblank := true } :: [])) = .next u) ∧
      Uneventful es ∧ es ≠ [] := by
  refine ⟨⟨_, rfl⟩, ?_, by decide⟩
  unfold Uneventful; decide
/-- Two framebuffers that differ, the same SAT and VAL. -/
theorem witness_NoEarlierFrameContentSurvives :
    let s := waitingAt .waitFrame { vblank := true }
    let s' : State := { s with fb := [(0x06000000, 0x12), (0x06012BFF, 0x34)] }
    s.fb.wf ∧ s'.fb.wf ∧ (∀ c ∈ s'.fb, hsvfill.fbBase ≤ c.1 ∧ c.1 < fbEnd hsvfill) ∧ s.phase = .waitFrame ∧
    s.sat = s'.sat ∧ s.val = s'.val ∧ s.edge.rst = false ∧ s.edge.vblank = true := by decide
theorem witness_NoEarlierFrameContentSurvives_steps :
    ∃ t t', step (waitingAt .waitFrame { vblank := true }) = .next t ∧
      step ({ waitingAt .waitFrame { vblank := true } with fb := [(0x06000000, 0x12), (0x06012BFF, 0x34)] } : State)
        = .next t' := ⟨_, _, rfl, rfl⟩
theorem witness_BoundedFramesRunTheServiceLoop :
    let ks : List (Keys × Nat) := [({ right := true }, 0), ({ up := true }, 2)]
    let s := State.resetWith [] [{ offer := some 0x16 }, { vblank := true }, { offer := some 0x46 }, {}, {}, { vblank := true }]
    s.phase = .idle ∧ s.offers = [] ∧
    s.inputs = ks.flatMap (fun k => { offer := some (encode (.frame k.1)) } ::
      (List.replicate k.2 EdgeInput.quiet ++ [{ vblank := true }])) ∧ ks ≠ [] := by decide
theorem witness_AStuckBlockStaysStuck : (waitingAt .waitFrame { offer := some 0x4 }).Stuck :=
  ⟨by decide, by decide⟩
theorem witness_AFinalStateStaysFinal :
    (State.resetWith [] [{ vblank := true }]).Final ∧ ∀ e ∈ (State.resetWith [] [{ vblank := true }]).inputs, e.rst = false :=
  ⟨⟨rfl, ⟨rfl, by decide⟩, rfl⟩, by decide⟩
/-- Every clause: a KEYS and a FRAME that change SAT, a CONV that changes RES, an illegal word. -/
theorem witness_OnlyTheNamedWritersWriteRegisters :
    (nextOf (step (offering 0x42))).sat ≠ (offering 0x42).sat ∧ (nextOf (step (offering 0x46))).sat ≠ (offering 0x46).sat ∧
    (nextOf (step (offering 0x0007FE01))).res ≠ (offering 0x0007FE01).res ∧
    (nextOf (step (offering 0x0))).ill ≠ (offering 0x0).ill ∧ (offering 0x0).edge.rst = false := by decide
/-- FILL changes a byte that held something else. -/
theorem witness_OnlyRenderingWritesTheFramebuffer :
    let s := (offering 0x4).memWrite 0x06000000 0xFFFF
    (nextOf (step s)).byteAt 0x06000000 ≠ s.byteAt 0x06000000 ∧ s.edge.rst = false := by decide
theorem witness_ReadsDuringAnOperationAreOldOrNew :
    (∃ t, step (offering 0x4) = .next t) ∧ (offering 0x4).edge.rst = false ∧
    (offering 0x4).acceptedCommand = some .fill ∧ (offering 0x42).edgeAccesses = [] ∧
    (offering 0x42).edge.rst = false := ⟨⟨_, rfl⟩, by decide, by decide, by decide, by decide⟩
theorem witness_StatusShowsBusyDuringAnOperation :
    (∃ t, step (offering 0x42) = .next t) ∧ (offering 0x42).acceptedCommand = some (.keys { up := true }) ∧
    (waitingAt .waitFrame { vblank := true }).phase = .waitFrame ∧
    (waitingAt .waitFrame { vblank := true }).edge = { vblank := true } := ⟨⟨_, rfl⟩, by decide, rfl, rfl⟩
theorem witness_StepBOverwritesEveryPixel :
    (waitingAt .waitFrame { vblank := true }).phase = .waitFrame ∧
    (waitingAt .waitFrame { vblank := true }).edge = { vblank := true } ∧ 239 < 240 ∧ 159 < 160 := by decide
theorem witness_AssemblerTextReadsAsItsLine :
    decimalText 31 = ['3', '1'] ∧ hexText 31 = ['0', 'x', '1', 'f'] ∧ '#' ∉ ['F', 'I', 'L', 'L', ' '] := by decide
/-- R196, U14: KEYS in progress: BUSY reads 1; a step in which no operation runs reads STATUS as it is. -/
theorem test_status_during :
    (offering 0x42).rdDataDuring 0 = [1, 1] ∧ (offering 0xF).rdDataDuring 0 = [0, 0xC] ∧
    (offering 0x42).cmdReadyDuring = false := by decide
theorem witness_EveryStepKeepsTheInvariant :
    ∃ s t : State, s.Inv ∧ step s = .next t ∧ s.phase = .waitFrame :=
  ⟨waitingAt .waitFrame { vblank := true }, _,
    ⟨wf_nil, inFramebuffer_nil, fun _ => ⟨rfl, rfl⟩, fun h => by cases h⟩, rfl, rfl⟩

end Sys2Proof.Tests
end

/-! PROOFS. Which configurations are admitted (R8, R54): what `Config.legal` and `Config.admission` say, and the
obligation on them. -/

namespace Sys2Proof

/-- R8 and R54: the boolean check as the ranges it checks. -/
theorem Config.legal_iff (c : Config) : c.legal = true ↔
    c.regionTab.length = 32 ∧ c.offsetTab.length = 32 ∧ (∀ r ∈ c.regionTab, r ≤ 7) ∧ (∀ o ∈ c.offsetTab, o ≤ 5) ∧
    32 ≤ c.width ∧ 1 ≤ c.height ∧ c.fbBase % 2 = 0 := by
  simp only [Config.legal, Bool.and_eq_true, beq_iff_eq, List.all_eq_true, decide_eq_true_eq, and_assoc]

theorem Config.admission_of_legal {c : Config} (h : c.legal = true) : c.admission = some c := if_pos h

theorem Config.admission_of_not_legal {c : Config} (h : ¬ c.legal = true) : c.admission = none := if_neg h

theorem Config.admission_eq_some_self_iff (c : Config) : c.admission = some c ↔ c.legal = true := by
  refine ⟨fun admitted => ?_, Config.admission_of_legal⟩
  by_contra h
  rw [Config.admission_of_not_legal h] at admitted
  cases admitted

end Sys2Proof

namespace Sys2Proof.Machine

theorem hsvfill_legal : hsvfill.legal = true := by decide

/-- Settles O6: admission is the check `Config.legal`, the check is the conjunction of the ranges of R8 and R54, and this
hardware's values lie in them. -/
theorem onlyLegalConfigurationsAreAdmitted : Obligations.OnlyLegalConfigurationsAreAdmitted := by
  refine ⟨fun c => (Config.admission_eq_some_self_iff c).trans c.legal_iff, fun c => ?_,
    Config.admission_of_legal hsvfill_legal⟩
  by_cases h : c.legal = true
  · exact .inl (Config.admission_of_legal h)
  · exact .inr (Config.admission_of_not_legal h)

end Sys2Proof.Machine

/-! PROOFS. The state and the edge (R21 to R38, R196): what the read port shows, what a rising edge accepts and answers,
and the obligations on them. -/

namespace Sys2Proof.Machine

/-! ### The read port (R23, R29, R31)

Each register word is a number whose digits are its fields (`toNat_statusWith`, `toNat_svWord`, `toNat_resWord`), so a
field is read off by arithmetic. -/

section ReadPort

variable (s : State)

theorem getLsbD_eq_of_toNat {n : Nat} {w : BitVec n} {i : Nat} {b : Bool} (h : w.toNat / 2 ^ i % 2 = b.toNat) :
    w.getLsbD i = b := by
  rw [BitVec.getLsbD, Nat.testBit_eq_decide_div_mod_eq, h]
  cases b <;> rfl

theorem extractLsb'_eq_of_toNat {m n lo : Nat} {w : BitVec m} {x : BitVec n} (h : w.toNat / 2 ^ lo % 2 ^ n = x.toNat) :
    w.extractLsb' lo n = x :=
  BitVec.eq_of_toNat_eq ((toNat_field w lo n).trans h)

theorem extractLsb'_eq_zero_of_toNat {m n lo : Nat} {w : BitVec m} (h : w.toNat / 2 ^ lo % 2 ^ n = 0) :
    w.extractLsb' lo n = 0 :=
  extractLsb'_eq_of_toNat (h.trans BitVec.toNat_zero.symm)

/-- R29: each field of STATUS as a digit of the word's number. -/
theorem statusWith_digits (b : Bool) :
    (s.statusWith b).toNat % 2 = b.toNat ∧ (s.statusWith b).toNat / 2 % 2 = s.waiting.toNat ∧
    (s.statusWith b).toNat / 4 % 2 = s.ill.toNat ∧ (s.statusWith b).toNat / 8 % 4 = s.cause.toNat ∧
    (s.statusWith b).toNat / 32 % 2 = s.framePending.toNat ∧ (s.statusWith b).toNat / 64 = 0 := by
  have hbusy := b.toNat_le
  have hwaiting := s.waiting.toNat_le
  have hill := s.ill.toNat_le
  have hpending := s.framePending.toNat_le
  rw [toNat_statusWith]
  omega

theorem statusWith_bit0 (b : Bool) : (s.statusWith b).getLsbD 0 = b :=
  getLsbD_eq_of_toNat (by have := statusWith_digits s b; omega)

theorem statusWith_bit1 (b : Bool) : (s.statusWith b).getLsbD 1 = s.waiting :=
  getLsbD_eq_of_toNat (by have := statusWith_digits s b; omega)

theorem statusWith_bit2 (b : Bool) : (s.statusWith b).getLsbD 2 = s.ill :=
  getLsbD_eq_of_toNat (by have := statusWith_digits s b; omega)

theorem statusWith_cause (b : Bool) : (s.statusWith b).extractLsb' 3 2 = s.cause :=
  extractLsb'_eq_of_toNat (by have := statusWith_digits s b; omega)

theorem statusWith_bit5 (b : Bool) : (s.statusWith b).getLsbD 5 = s.framePending :=
  getLsbD_eq_of_toNat (by have := statusWith_digits s b; omega)

theorem statusWith_upper (b : Bool) : (s.statusWith b).extractLsb' 6 26 = 0 :=
  extractLsb'_eq_zero_of_toNat (by have := statusWith_digits s b; omega)

theorem busy_eq_decide : s.busy = decide (s.phase ≠ .idle) := by
  cases h : s.phase <;> simp [State.busy, h]

theorem waiting_eq_decide : s.waiting = decide (s.phase = .wait ∨ s.phase = .waitFrame) := by
  cases h : s.phase <;> simp [State.waiting, h]

theorem framePending_eq_decide : s.framePending = decide (s.phase = .waitFrame) := by
  cases h : s.phase <;> simp [State.framePending, h]

/-- Log 5: between operations the block is busy exactly while it waits. -/
theorem busy_eq_waiting : s.busy = s.waiting := by
  cases h : s.phase <;> simp [State.busy, State.waiting, h]

@[simp] theorem rdData_zero : s.rdData 0 = s.statusWord := rfl
@[simp] theorem rdData_one : s.rdData 1 = s.svWord := rfl
@[simp] theorem rdData_two : s.rdData 2 = s.resWord := rfl
@[simp] theorem rdData_three : s.rdData 3 = s.errcmd := rfl

/-- R32 and R38: an idle block whose registers are all 0 reads 0 at every index. -/
theorem rdData_eq_zero (hp : s.phase = .idle) (hsat : s.sat = 0) (hval : s.val = 0) (hres : s.res = 0)
    (hill : s.ill = false) (hcause : s.cause = 0) (herr : s.errcmd = 0) (a : BitVec 2) : s.rdData a = 0 := by
  have hstatus : s.statusWord = 0 := BitVec.eq_of_toNat_eq (by
    simp [toNat_statusWord, State.busy, State.waiting, State.framePending, hp, hill, hcause])
  have hsv : s.svWord = 0 := BitVec.eq_of_toNat_eq (by simp [toNat_svWord, hsat, hval])
  have hresw : s.resWord = 0 := BitVec.eq_of_toNat_eq (by simp [toNat_resWord, hres])
  unfold State.rdData
  split_ifs <;> assumption

/-- Two STATUS words of one state differ at most in BUSY, so bits 31:1 and BUSY determine the word. -/
theorem eq_statusWith_iff (b : Bool) (w : Word) :
    w = s.statusWith b ↔ w.getLsbD 0 = b ∧ w.extractLsb' 1 31 = s.statusWord.extractLsb' 1 31 := by
  have hupper : (s.statusWith b).extractLsb' 1 31 = s.statusWord.extractLsb' 1 31 :=
    extractLsb'_eq_of_toNat (by
      rw [toNat_field, toNat_statusWith, toNat_statusWord]
      have := b.toNat_le; have := s.busy.toNat_le; omega)
  constructor
  · rintro rfl
    exact ⟨statusWith_bit0 s b, hupper⟩
  · rintro ⟨hbit, hrest⟩
    rw [← hupper] at hrest
    have hlow := congrArg BitVec.toNat hrest
    rw [← statusWith_bit0 s b, BitVec.getLsbD, BitVec.getLsbD, Nat.testBit_zero, Nat.testBit_zero,
      decide_eq_decide] at hbit
    rw [toNat_field, toNat_field] at hlow
    exact BitVec.eq_of_toNat_eq (by omega)

end ReadPort

/-- Settles O50: each field of STATUS is a digit of `toNat_statusWith`. -/
theorem statusFields : Obligations.StatusFields := by
  intro s
  refine ⟨?_, ?_, statusWith_bit2 s _, statusWith_cause s _, ?_, statusWith_upper s _, ?_⟩
  · exact (statusWith_bit0 s _).trans (busy_eq_decide s)
  · exact (statusWith_bit1 s _).trans (waiting_eq_decide s)
  · exact (statusWith_bit5 s _).trans (framePending_eq_decide s)
  · exact (statusWith_bit0 s _).trans ((busy_eq_waiting s).trans (statusWith_bit1 s _).symm)

/-- R31: the fields of SV and the zeros between them. -/
theorem svWord_fields (s : State) :
    s.svWord.extractLsb' 0 5 = s.sat ∧ s.svWord.extractLsb' 5 3 = 0 ∧
    s.svWord.extractLsb' 8 5 = s.val ∧ s.svWord.extractLsb' 13 19 = 0 := by
  have h := toNat_svWord s
  exact ⟨extractLsb'_eq_of_toNat (by omega), extractLsb'_eq_zero_of_toNat (by omega),
    extractLsb'_eq_of_toNat (by omega), extractLsb'_eq_zero_of_toNat (by omega)⟩

/-- R28: RES is zero-extended. -/
theorem resWord_fields (s : State) : s.resWord.extractLsb' 0 15 = s.res ∧ s.resWord.extractLsb' 15 17 = 0 := by
  have h := toNat_resWord s
  exact ⟨extractLsb'_eq_of_toNat (by omega), extractLsb'_eq_zero_of_toNat (by omega)⟩

/-- Settles O51: the four indices select the four words, and the words have these fields. -/
theorem readPortMap : Obligations.ReadPortMap := by
  intro s
  obtain ⟨hsat, hgap, hval, hzero⟩ := svWord_fields s
  obtain ⟨hres, hresZero⟩ := resWord_fields s
  exact ⟨rdData_zero s, hsat, hgap, hval, hzero, hres, hresZero, rdData_three s⟩

/-- Settles O39: the register values are `State.reset`'s own, and an idle block with these registers reads 0 everywhere. -/
theorem resetStateIsAsSpecified : Obligations.ResetStateIsAsSpecified :=
  ⟨rfl, rfl, rfl, rfl, rfl, rfl, rfl, rdData_eq_zero State.reset rfl rfl rfl rfl rfl rfl rfl, rfl⟩

/-- Settles O53: after reset no byte is listed and no error is recorded. -/
theorem invariantHoldsAtReset : Obligations.InvariantHoldsAtReset := by
  refine ⟨wf_nil, inFramebuffer_nil, fun _ => ⟨rfl, rfl⟩, fun hill => ?_⟩
  cases hill

/-! ### What a rising edge accepts (R22) -/

section Accepting

variable {s : State}

theorem cmdReadyPort_iff : s.cmdReadyPort = true ↔ s.phase = .idle ∧ s.edge.rst = false := by
  simp [State.cmdReadyPort, State.cmdReady]

theorem cmdReadyPort_of_rst (hr : s.edge.rst = true) : s.cmdReadyPort = false := by
  simp [State.cmdReadyPort, State.cmdReady, hr]

theorem cmdReadyPort_of_waiting (hp : s.phase ≠ .idle) : s.cmdReadyPort = false := by
  simp [State.cmdReadyPort, State.cmdReady, hp]

theorem acceptedWord_of_not_ready (h : s.cmdReadyPort = false) : s.acceptedWord = none := by
  simp [State.acceptedWord, h]

theorem acceptedWord_of_idle (hr : s.edge.rst = false) (hp : s.phase = .idle) :
    s.acceptedWord = s.latch.offers.head? := if_pos (cmdReadyPort_iff.mpr ⟨hp, hr⟩)

theorem acceptedCommand_of_no_word (h : s.acceptedWord = none) : s.acceptedCommand = none := by
  simp [State.acceptedCommand, h]

theorem acceptedCommand_of_command {w : Word} {i : Instr} (h : s.acceptedWord = some w) (hd : decode w = .command i) :
    s.acceptedCommand = some i := by
  simp [State.acceptedCommand, h, hd, Decoded.instr?]

theorem acceptedCommand_of_illegal {w : Word} {c : IllegalCause} (h : s.acceptedWord = some w)
    (hd : decode w = .illegal c) : s.acceptedCommand = none := by
  simp [State.acceptedCommand, h, hd, Decoded.instr?]

end Accepting

/-! ### What an accepted command does to each register (R27, R28, R30, R33) -/

section Exec

variable {s t : State} {i : Instr}

theorem exec_offers (h : exec i s = .next t) : t.offers = s.offers := by
  cases i <;> cases h <;> rfl

theorem exec_sameErrors (h : exec i s = .next t) : s.SameErrors t := by
  cases i <;> cases h <;> exact ⟨rfl, rfl, rfl⟩

/-- R27: only KEYS and FRAME write SAT and VAL. -/
theorem exec_sameSatVal (h : exec i s = .next t) (hi : ∀ k, i ≠ .keys k ∧ i ≠ .frame k) : s.SameSatVal t := by
  cases i with
  | keys k => exact absurd rfl (hi k).1
  | frame k => exact absurd rfl (hi k).2
  | _ => cases h; exact ⟨rfl, rfl⟩

/-- R28: only CONV writes RES. -/
theorem exec_res (h : exec i s = .next t) (hi : ∀ x y z, i ≠ .conv x y z) : t.res = s.res := by
  cases i with
  | conv x y z => exact absurd rfl (hi x y z)
  | _ => cases h; rfl

/-- R33: of an idle block's commands VWAIT alone enters WAIT. -/
theorem exec_phase_wait_iff (h : exec i s = .next t) (hp : s.phase = .idle) : t.phase = .wait ↔ i = .vwait := by
  cases i <;> cases h <;> simp [hp]

/-- R33: of an idle block's commands FRAME alone enters WAIT_FRAME. -/
theorem exec_phase_waitFrame_iff (h : exec i s = .next t) (hp : s.phase = .idle) :
    t.phase = .waitFrame ↔ ∃ k, i = .frame k := by
  cases i <;> cases h <;> simp [hp]

end Exec

/-! ### What a vblank event leaves unchanged (R176) -/

section VblankEvent

variable (s : State)

@[simp] theorem vblankEvent_phase : s.vblankEvent.phase = .idle := by
  unfold State.vblankEvent
  split <;> simp [*]

@[simp] theorem vblankEvent_offers : s.vblankEvent.offers = s.offers := by unfold State.vblankEvent; split <;> rfl

@[simp] theorem vblankEvent_inputs : s.vblankEvent.inputs = s.inputs := by unfold State.vblankEvent; split <;> rfl

@[simp] theorem vblankEvent_res : s.vblankEvent.res = s.res := by unfold State.vblankEvent; split <;> rfl

theorem vblankEvent_sameSatVal : s.SameSatVal s.vblankEvent := by
  unfold State.vblankEvent; split <;> exact ⟨rfl, rfl⟩

theorem vblankEvent_sameErrors : s.SameErrors s.vblankEvent := by
  unfold State.vblankEvent; split <;> exact ⟨rfl, rfl, rfl⟩

end VblankEvent

/-! ### What a rising edge answers, with what it accepted -/

/-- The states one rising edge can lead to, case by case, each with the word accepted at it. -/
inductive EdgeResult (s : State) : State → Prop where
  | reset (hr : s.edge.rst = true) (ha : s.acceptedWord = none) : EdgeResult s s.latch.resetEdge
  | nothingOffered (hr : s.edge.rst = false) (hp : s.phase = .idle) (ho : s.latch.offers = [])
      (ha : s.acceptedWord = none) : EdgeResult s s.latch
  | command {t : State} (w : Word) (ws : List Word) (i : Instr) (hr : s.edge.rst = false) (hp : s.phase = .idle)
      (ho : s.latch.offers = w :: ws) (ha : s.acceptedWord = some w) (hc : s.acceptedCommand = some i)
      (he : exec i { s.latch with offers := ws } = .next t) : EdgeResult s t
  | illegal (w : Word) (ws : List Word) (c : IllegalCause) (hr : s.edge.rst = false) (hp : s.phase = .idle)
      (ho : s.latch.offers = w :: ws) (ha : s.acceptedWord = some w) (hd : decode w = .illegal c) :
      EdgeResult s (State.raiseIllegal { s.latch with offers := ws } c w)
  | vblank (hr : s.edge.rst = false) (hp : s.phase ≠ .idle) (hv : s.edge.vblank = true) (ha : s.acceptedWord = none) :
      EdgeResult s s.latch.vblankEvent
  | quiet (hr : s.edge.rst = false) (hp : s.phase ≠ .idle) (hv : s.edge.vblank = false) (ha : s.acceptedWord = none) :
      EdgeResult s s.latch

/-- `step_cases` together with what `acceptedWord` and `acceptedCommand` say of the same edge. -/
theorem edgeResult_of_step {s t : State} (h : step s = .next t) : EdgeResult s t := by
  have hword {w ws} (hr : s.edge.rst = false) (hp : s.phase = .idle) (ho : s.latch.offers = w :: ws) :
      s.acceptedWord = some w := by rw [acceptedWord_of_idle hr hp, ho]; rfl
  rcases step_cases s with ⟨hr, hs⟩ | ⟨hr, hp, ho, hs⟩ | ⟨w, ws, i, hr, hp, ho, hd, hs⟩ | ⟨w, ws, c, hr, hp, ho, hd, hs⟩ |
    ⟨hr, hp, hv, hs⟩ | ⟨hr, hp, hv, hs⟩ <;> rw [hs] at h
  · cases h
    exact .reset hr (acceptedWord_of_not_ready (cmdReadyPort_of_rst hr))
  · cases h
    exact .nothingOffered hr hp ho (by rw [acceptedWord_of_idle hr hp, ho]; rfl)
  · have ha := hword hr hp ho
    exact .command w ws i hr hp ho ha (acceptedCommand_of_command ha hd) h
  · cases h
    exact .illegal w ws c hr hp ho (hword hr hp ho) hd
  · cases h
    exact .vblank hr hp hv (acceptedWord_of_not_ready (cmdReadyPort_of_waiting hp))
  · cases h
    exact .quiet hr hp hv (acceptedWord_of_not_ready (cmdReadyPort_of_waiting hp))

/-! ### The obligations on the edge -/

/-- Settles O33: an idle edge with a word offered accepts it, and accepting a command's word is that command's `exec`. -/
theorem stepRunsTheAcceptedCommand : Obligations.StepRunsTheAcceptedCommand := by
  intro s w ws i hr hp ho hd
  exact (step_of_idle_word s w ws hr hp ho).trans (acceptWord_of_command _ w i hd)

/-- Settles O41: an accepted word is the head of the words offered, and no other case takes one away. -/
theorem offeredWordsAreNotLost : Obligations.OfferedWordsAreNotLost := by
  intro s t h
  rw [← latch_offers]
  cases edgeResult_of_step h with
  | reset _ ha => simp [ha]
  | nothingOffered _ _ _ ha => simp [ha]
  | command w ws i _ _ ho ha _ he => rw [ha, ho, exec_offers he]; rfl
  | illegal w ws c _ _ ho ha _ => rw [ha, ho, raiseIllegal_offers]; rfl
  | vblank _ _ _ ha => simp [ha]
  | quiet _ _ _ ha => simp [ha]

/-- Settles O48: an edge writes these registers only by `exec` or `raiseIllegal`, and `exec`'s writers are R27's and
R28's. -/
theorem onlyTheNamedWritersWriteRegisters : Obligations.OnlyTheNamedWritersWriteRegisters := by
  intro s t h hr
  cases edgeResult_of_step h with
  | reset hr' _ => simp [hr] at hr'
  | nothingOffered => exact ⟨fun hn => absurd ⟨rfl, rfl⟩ hn, fun hn => absurd rfl hn, fun hn => absurd ⟨rfl, rfl, rfl⟩ hn⟩
  | command w ws i _ _ _ _ hc he =>
    rw [hc]
    refine ⟨fun hn => ?_, fun hn => ?_, fun hn => absurd (exec_sameErrors he) hn⟩
    · by_contra hk
      have hsame := exec_sameSatVal he (by simpa using hk)
      exact hn hsame
    · by_contra hk
      have hsame := exec_res he (by simpa using hk)
      exact hn hsame
  | illegal w ws c _ _ _ ha hd =>
    exact ⟨fun hn => absurd ⟨raiseIllegal_sat _ c w, raiseIllegal_val _ c w⟩ hn,
      fun hn => absurd (raiseIllegal_res _ c w) hn, fun _ => ⟨w, c, ha, hd⟩⟩
  | vblank =>
    exact ⟨fun hn => absurd (vblankEvent_sameSatVal s.latch) hn, fun hn => absurd (vblankEvent_res s.latch) hn,
      fun hn => absurd (vblankEvent_sameErrors s.latch) hn⟩
  | quiet => exact ⟨fun hn => absurd ⟨rfl, rfl⟩ hn, fun hn => absurd rfl hn, fun hn => absurd ⟨rfl, rfl, rfl⟩ hn⟩

/-- Settles O40: a waiting block is not ready, and its edge is a vblank event or only takes the inputs. -/
theorem aWaitingBlockAcceptsNothing : Obligations.AWaitingBlockAcceptsNothing := by
  intro s hp hr
  have hready := cmdReadyPort_of_waiting hp
  refine ⟨hready, acceptedWord_of_not_ready hready, ?_⟩
  cases hv : s.edge.vblank with
  | true =>
    exact ⟨_, step_of_waiting_vblank s hr hp hv, vblankEvent_offers _, vblankEvent_inputs _,
      vblankEvent_sameSatVal s.latch, vblankEvent_res _, vblankEvent_sameErrors s.latch, fun h => by cases h⟩
  | false =>
    exact ⟨_, step_of_waiting_quiet s hr hp hv, rfl, rfl, ⟨rfl, rfl⟩, rfl, ⟨rfl, rfl, rfl⟩, fun _ => ⟨rfl, fun _ => rfl⟩⟩

/-- Settles O57: bits 31:1 and BUSY determine a STATUS word, so the two words a read may return are those described. -/
theorem statusShowsBusyDuringAnOperation : Obligations.StatusShowsBusyDuringAnOperation := by
  intro s t h hop
  have hoperating : s.operating = true := (operating_iff s).mpr hop
  refine ⟨by simp [State.cmdReadyDuring, hoperating], fun w => ?_⟩
  rw [mem_rdDataDuring_status h hoperating, eq_statusWith_iff, eq_statusWith_iff, ← and_or_left]

/-- R33: an idle block leaves IDLE only by an accepted VWAIT or FRAME. -/
theorem phase_after_idle_edge {s t : State} (h : step s = .next t) (hr : s.edge.rst = false) (hp : s.phase = .idle) :
    (t.phase = .wait ↔ s.acceptedCommand = some .vwait) ∧
    (t.phase = .waitFrame ↔ ∃ k, s.acceptedCommand = some (.frame k)) := by
  cases edgeResult_of_step h with
  | reset hr' _ => simp [hr] at hr'
  | nothingOffered _ _ _ ha => simp [acceptedCommand_of_no_word ha, hp]
  | command w ws i _ _ _ _ hc he =>
    simpa [hc] using And.intro (exec_phase_wait_iff he hp) (exec_phase_waitFrame_iff he hp)
  | illegal w ws c _ _ _ ha hd => simp [acceptedCommand_of_illegal ha hd, hp]
  | vblank _ hp' => exact absurd hp hp'
  | quiet _ hp' => exact absurd hp hp'

/-- R177: without a reset, an idle block's edge depends on what `latch` takes and on nothing else of the inputs. -/
theorem step_eq_of_latch_eq {s s' : State} (hp : s.phase = .idle) (hr : s.edge.rst = false) (hr' : s'.edge.rst = false)
    (hl : s.latch = s'.latch) : step s = step s' := by
  have hp' : s'.phase = .idle := by rw [← latch_phase, ← hl, latch_phase, hp]
  cases ho : s.latch.offers with
  | nil => rw [step_of_idle_empty s hr hp ho, step_of_idle_empty s' hr' hp' (hl ▸ ho), hl]
  | cons w ws => rw [step_of_idle_word s w ws hr hp ho, step_of_idle_word s' w ws hr' hp' (hl ▸ ho), hl]

/-- Settles O37: the edge's cases, one for each transition; `latch` does not take `vblank`, so an idle block ignores it. -/
theorem phaseTransitionsAreExact : Obligations.PhaseTransitionsAreExact := by
  refine ⟨fun s t h => ⟨fun hr => ?_, phase_after_idle_edge h, fun hr hp hv => ?_, fun hr hp hv => ?_,
    fun hr hp hv => ?_⟩, fun s e es hp hr => step_eq_of_latch_eq hp hr hr rfl⟩
  · cases (step_of_rst s hr).symm.trans h
    rfl
  · cases (step_of_waiting_vblank s hr hp hv).symm.trans h
    exact vblankEvent_phase _
  · cases (step_of_waiting_quiet s hr hp hv).symm.trans h
    rfl
  · cases (step_of_waiting_vblank s hr (by simp [hp]) hv).symm.trans h
    exact ⟨_, _, rfl, rfl, vblankEvent_waitFrame s.latch hp⟩

end Sys2Proof.Machine

/-! PROOFS. The framebuffer as memory (R50 to R57, R65, R195): what an edge does to it, the invariant of every step, the
addresses a step drives, the byte order of a pixel, and the obligations on them. -/

namespace Sys2Proof.Machine

/-! ### What an edge does to the framebuffer (R51, R65) -/

section Writers

variable {s t : State}

/-- R65: of the commands FILL and REPL alone write the framebuffer. -/
theorem exec_fb_cases {i : Instr} (h : exec i s = .next t) :
    (i = .fill ∧ t = s.fillBody) ∨ (i = .repl ∧ t = s.replBody) ∨ (t.fb = s.fb ∧ t.fbDraw = s.fbDraw) := by
  cases i with
  | fill => cases h; exact .inl ⟨rfl, rfl⟩
  | repl => cases h; exact .inr (.inl ⟨rfl, rfl⟩)
  | _ => cases h; exact .inr (.inr ⟨rfl, rfl⟩)

/-- R148: a vblank event writes the framebuffer for a waiting FRAME only. -/
theorem vblankEvent_fb_cases (s : State) :
    (s.phase = .waitFrame ∧ s.vblankEvent.fb = s.fillBody.replBody.fb) ∨
    (s.vblankEvent.fb = s.fb ∧ s.vblankEvent.fbDraw = s.fbDraw) := by
  cases hp : s.phase with
  | idle => rw [vblankEvent_idle s hp]; exact .inr ⟨rfl, rfl⟩
  | wait => rw [vblankEvent_wait s hp]; exact .inr ⟨rfl, rfl⟩
  | waitFrame => rw [vblankEvent_waitFrame s hp]; exact .inl ⟨rfl, rfl⟩

/-- A byte is a function of the listed bytes and the draw. -/
theorem sameBytes_of_fb (hfb : t.fb = s.fb) (hdraw : t.fbDraw = s.fbDraw) : s.SameBytes t := by
  intro a
  simp only [State.byteAt, hfb, hdraw]

end Writers

/-! ### The invariant (R29, R57, R171) -/

section Invariant

variable {s t : State}

/-- The framebuffer's half of `State.Inv`: the canonical form, and nothing listed outside the framebuffer. -/
def Memory.Sound (m : Memory) : Prop := m.wf ∧ m.InFramebuffer

theorem inv_iff : s.Inv ↔ s.fb.Sound ∧ s.ErrorRecord := and_assoc.symm

theorem sound_nil : Memory.Sound [] := ⟨wf_nil, inFramebuffer_nil⟩

theorem sound_fillBody (h : s.fb.Sound) : s.fillBody.fb.Sound := ⟨wf_fillBody h.1, inFramebuffer_fillBody h.2⟩

theorem sound_replBody (h : s.fb.Sound) : s.replBody.fb.Sound := ⟨wf_replBody h.1, inFramebuffer_replBody h.2⟩

theorem sound_of_exec {i : Instr} (h : exec i s = .next t) (hs : s.fb.Sound) : t.fb.Sound := by
  obtain ⟨-, rfl⟩ | ⟨-, rfl⟩ | ⟨hfb, -⟩ := exec_fb_cases h
  · exact sound_fillBody hs
  · exact sound_replBody hs
  · rwa [hfb]

theorem sound_vblankEvent (hs : s.fb.Sound) : s.vblankEvent.fb.Sound := by
  obtain ⟨-, hfb⟩ | ⟨hfb, -⟩ := vblankEvent_fb_cases s <;> rw [hfb]
  · exact sound_replBody (sound_fillBody hs)
  · exact hs

theorem sound_of_step (h : step s = .next t) (hs : s.fb.Sound) : t.fb.Sound := by
  cases edgeResult_of_step h with
  | reset => exact sound_nil
  | nothingOffered => exact hs
  | command w ws i _ _ _ _ _ he => exact sound_of_exec he hs
  | illegal w ws c => rwa [raiseIllegal_fb]
  | vblank => exact sound_vblankEvent hs
  | quiet => exact hs

theorem errorRecord_of_sameErrors (h : s.SameErrors t) (hs : s.ErrorRecord) : t.ErrorRecord := by
  obtain ⟨hill, hcause, herrcmd⟩ := h
  unfold State.ErrorRecord
  rwa [hill, hcause, herrcmd]

theorem errorRecord_resetEdge (s : State) : s.resetEdge.ErrorRecord :=
  ⟨fun _ => ⟨rfl, rfl⟩, nofun⟩

/-- R171: an illegal word recorded with its own cause is a truthful record, and a first error that stays was one. -/
theorem errorRecord_raiseIllegal {c : IllegalCause} {w : Word} (hd : decode w = .illegal c) (hs : s.ErrorRecord) :
    (s.raiseIllegal c w).ErrorRecord := by
  cases hill : s.ill with
  | true => rwa [raiseIllegal_of_ill s c w hill]
  | false =>
    rw [raiseIllegal_of_not_ill s c w hill]
    exact ⟨nofun, fun _ => ⟨c, hd, rfl⟩⟩

theorem errorRecord_of_step (h : step s = .next t) (hs : s.ErrorRecord) : t.ErrorRecord := by
  cases edgeResult_of_step h with
  | reset => exact errorRecord_resetEdge _
  | nothingOffered => exact hs
  | command w ws i _ _ _ _ _ he => exact errorRecord_of_sameErrors (exec_sameErrors he) hs
  | illegal w ws c _ _ _ _ hd => exact errorRecord_raiseIllegal hd hs
  | vblank => exact errorRecord_of_sameErrors (vblankEvent_sameErrors _) hs
  | quiet => exact hs

/-- R170: the recorded cause is 0, 1 or 2. -/
theorem cause_ne_three (h : s.ErrorRecord) : s.cause ≠ 3 := by
  cases hill : s.ill with
  | false =>
    rw [(h.1 hill).1]
    decide
  | true =>
    obtain ⟨c, -, hcause⟩ := h.2 hill
    rw [hcause]
    cases c <;> decide

end Invariant

/-- Settles O54: the memory's half is kept because only `fillBody` and `replBody` write bytes, and both stay inside the
framebuffer; the record's half because only a reset and `raiseIllegal` write the record. -/
theorem everyStepKeepsTheInvariant : Obligations.EveryStepKeepsTheInvariant := by
  intro s t hinv h
  obtain ⟨hfb, hrecord⟩ := inv_iff.mp hinv
  have hrecord' := errorRecord_of_step h hrecord
  exact ⟨inv_iff.mpr ⟨sound_of_step h hfb, hrecord'⟩, cause_ne_three hrecord'⟩

/-- Settles O49: where an edge is no reset, bytes that differ rule out every case but the three writers. -/
theorem onlyRenderingWritesTheFramebuffer : Obligations.OnlyRenderingWritesTheFramebuffer := by
  intro s t h hr hdiff
  cases edgeResult_of_step h with
  | reset hr' => simp [hr] at hr'
  | nothingOffered => exact absurd (fun _ => rfl) hdiff
  | command w ws i _ _ _ _ hc he =>
    obtain ⟨rfl, -⟩ | ⟨rfl, -⟩ | ⟨hfb, hdraw⟩ := exec_fb_cases he
    · exact .inl hc
    · exact .inr (.inl hc)
    · exact absurd (sameBytes_of_fb hfb hdraw) hdiff
  | illegal w ws c =>
    exact absurd (sameBytes_of_fb (raiseIllegal_fb _ c w) (raiseIllegal_fbDraw _ c w)) hdiff
  | vblank _ _ hv =>
    obtain ⟨hp, -⟩ | ⟨hfb, hdraw⟩ := vblankEvent_fb_cases s.latch
    · exact .inr (.inr ⟨hp, hv⟩)
    · exact absurd (sameBytes_of_fb hfb hdraw) hdiff
  | quiet => exact absurd (fun _ => rfl) hdiff

/-! ### Idempotence (R56) -/

/-- A store keeps the cells below it. -/
theorem filter_below_writeBytes (m : Memory) (a : Nat) (bs : List Byte) :
    (m.writeBytes a bs).filter (fun c => decide (c.1 < a)) = m.filter (fun c => decide (c.1 < a)) := by
  have hstored : (cellsFrom a bs).filter (fun c => decide (c.1 < a)) = [] :=
    List.filter_eq_nil_iff.mpr fun c hc => by
      have := mem_cellsFrom hc
      simp only [decide_eq_true_eq]
      omega
  have habove : ∀ c ∈ m, ¬ (c.1 < a ∧ a + bs.length ≤ c.1) := fun c _ => by omega
  simpa [Memory.writeBytes, List.filter_filter, hstored] using habove

/-- A store keeps the cells above it. -/
theorem filter_above_writeBytes (m : Memory) (a : Nat) (bs : List Byte) :
    (m.writeBytes a bs).filter (fun c => decide (a + bs.length ≤ c.1))
      = m.filter (fun c => decide (a + bs.length ≤ c.1)) := by
  have hstored : (cellsFrom a bs).filter (fun c => decide (a + bs.length ≤ c.1)) = [] :=
    List.filter_eq_nil_iff.mpr fun c hc => by
      have := mem_cellsFrom hc
      simp only [decide_eq_true_eq]
      omega
  have hbelow : ∀ c ∈ m, ¬ (a + bs.length ≤ c.1 ∧ c.1 < a) := fun c _ => by omega
  simpa [Memory.writeBytes, List.filter_filter, hstored] using hbelow

/-- Storing the same bytes again changes nothing, as a list, whatever the form of the memory was. -/
theorem writeBytes_writeBytes_self (m : Memory) (a : Nat) (bs : List Byte) :
    (m.writeBytes a bs).writeBytes a bs = m.writeBytes a bs := by
  rw [Memory.writeBytes, filter_below_writeBytes, filter_above_writeBytes, Memory.writeBytes]

theorem writePixels_writePixels_self (s : State) (i : Nat) (ps : List Pixel) :
    (s.writePixels i ps).writePixels i ps = s.writePixels i ps := by
  simp only [State.writePixels, writeBytes_writeBytes_self]

/-- FILL does not write SAT and VAL, so the second FILL stores the first one's row. -/
theorem fillBody_fillBody (s : State) : s.fillBody.fillBody = s.fillBody :=
  writePixels_writePixels_self s 0 (rowPixels hsvfill s.sat s.val)

theorem rowZero_replBody (s : State) : s.replBody.rowZero = s.rowZero :=
  List.map_congr_left fun x hx => pixelAt_replBody_rowZero s x (List.mem_range.mp hx)

/-- REPL does not write row 0, so the second REPL stores the first one's copies. -/
theorem replBody_replBody (s : State) : s.replBody.replBody = s.replBody :=
  calc s.replBody.replBody
      = s.replBody.writePixels hsvfill.width (List.replicate (hsvfill.height - 1) s.rowZero).flatten :=
        congrArg
          (fun row => s.replBody.writePixels hsvfill.width (List.replicate (hsvfill.height - 1) row).flatten)
          (rowZero_replBody s)
    _ = s.replBody := writePixels_writePixels_self s _ _

/-- Settles O30: both commands are a store whose bytes the first one does not change. -/
theorem fillAndReplAreIdempotent : Obligations.FillAndReplAreIdempotent := by
  refine fun s t u => ⟨fun ht hu => ?_, fun ht hu => ?_⟩
  · cases ht
    cases hu
    exact fillBody_fillBody s
  · cases ht
    cases hu
    exact replBody_replBody s

/-! ### The addresses of a step's accesses (R50, R54, R57, R195) -/

section Accesses

variable {s : State}

/-- What R54 and R57 ask of an access: an even address, both bytes in the framebuffer, an address `fb_addr` can carry. -/
def FbAccess.InBounds (a : FbAccess) : Prop :=
  a.addr % 2 = 0 ∧ hsvfill.fbBase ≤ a.addr ∧ a.addr + 2 ≤ fbEnd hsvfill ∧ a.fbAddrPort.toNat = a.addr

theorem fbEnd_hsvfill : fbEnd hsvfill = 0x06012C00 := rfl

/-- The access of a pixel of the framebuffer is in bounds. -/
theorem inBounds_of_pixel (b : Bool) {i : Nat} (p : Pixel) (h : i < 38400) :
    (⟨b, fbAddr hsvfill i, p⟩ : FbAccess).InBounds := by
  simp only [FbAccess.InBounds, FbAccess.fbAddrPort, BitVec.toNat_ofNat, fbAddr, hsvfill_fbBase, fbEnd_hsvfill]
  omega

/-- FILL's columns are those of row 0. -/
theorem column_lt_of_mem_fillWrites {sat val : Channel} {w : Nat × Pixel} (h : w ∈ fillWrites hsvfill sat val) :
    w.1 < 240 := by
  simp only [fillWrites, List.mem_flatMap, List.mem_map, List.mem_range] at h
  obtain ⟨k, hk, j, hj, rfl⟩ := h
  have hstep := spanStart_add_width hsvfill k
  have hlast : spanStart hsvfill (k + 1) ≤ spanStart hsvfill nhue := spanStart_mono hsvfill hk
  have hrow : spanStart hsvfill nhue = 240 := rfl
  dsimp only
  omega

/-- FILL makes one write for each pixel of its row. -/
theorem fillWrites_length (sat val : Channel) : (fillWrites hsvfill sat val).length = 240 := by
  rw [← rowPixels_hsvfill_length sat val]
  simp [fillWrites, rowPixels, List.length_flatMap]

/-- REPL's source and destination are pixels of the framebuffer. -/
theorem mem_replTargets {xy : Nat × Nat} (h : xy ∈ replTargets hsvfill) :
    xy.1 < 240 ∧ pixelIndex hsvfill xy.1 xy.2 < 38400 := by
  simp only [replTargets, List.mem_flatMap, List.mem_map, List.mem_range, hsvfill_height, hsvfill_width] at h
  obtain ⟨j, hj, x, hx, rfl⟩ := h
  simp only [pixelIndex, hsvfill_width]
  omega

theorem replTargets_length : (replTargets hsvfill).length = 38160 := by
  simp [replTargets, List.length_flatMap]

theorem inBounds_fillAccesses {a : FbAccess} (h : a ∈ s.fillAccesses) : a.InBounds := by
  obtain ⟨w, hw, rfl⟩ := List.mem_map.mp h
  have hcol := column_lt_of_mem_fillWrites hw
  exact inBounds_of_pixel _ _ (by omega)

theorem inBounds_replAccesses {a : FbAccess} (h : a ∈ s.replAccesses) : a.InBounds := by
  obtain ⟨xy, hxy, ha⟩ := List.mem_flatMap.mp h
  obtain ⟨hsource, htarget⟩ := mem_replTargets hxy
  simp only [List.mem_cons, List.not_mem_nil, or_false] at ha
  obtain rfl | rfl := ha
  · exact inBounds_of_pixel _ _ (by omega)
  · exact inBounds_of_pixel _ _ htarget

theorem inBounds_frameAccesses {a : FbAccess} (h : a ∈ s.frameAccesses) : a.InBounds :=
  (List.mem_append.mp h).elim inBounds_fillAccesses inBounds_replAccesses

theorem inBounds_commandAccesses {i : Instr} {a : FbAccess} (h : a ∈ s.commandAccesses i) : a.InBounds := by
  cases i with
  | fill => exact inBounds_fillAccesses h
  | repl => exact inBounds_replAccesses h
  | _ => cases h

/-- An edge accesses the framebuffer for an accepted command or for step B of FRAME. -/
theorem mem_edgeAccesses {a : FbAccess} (h : a ∈ s.edgeAccesses) :
    (∃ i, a ∈ s.commandAccesses i) ∨ a ∈ s.frameAccesses := by
  unfold State.edgeAccesses at h
  split at h
  · cases h
  · split at h
    · split at h
      · cases h
      · split at h
        · exact .inl ⟨_, h⟩
        · cases h
    · cases h
    · split at h
      · exact .inr h
      · cases h

/-- FILL writes and never reads. -/
theorem fillAccesses_filter (s : State) :
    s.fillAccesses.filter (fun a => a.write) = s.fillAccesses ∧ s.fillAccesses.filter (fun a => !a.write) = [] := by
  simp [State.fillAccesses, List.filter_map, Function.comp_def]

/-- Stated over any list, so that checking the proof never evaluates REPL's 38160 pairs. -/
theorem length_filter_flatMap_of_one {α β : Type} {f : α → List β} {p : β → Bool}
    (h : ∀ x, ((f x).filter p).length = 1) (l : List α) : ((l.flatMap f).filter p).length = l.length := by
  simp [List.filter_flatMap, List.length_flatMap, h]

/-- REPL reads once and writes once for each pixel it copies. -/
theorem replAccesses_count (s : State) :
    (s.replAccesses.filter (fun a => a.write)).length = (replTargets hsvfill).length ∧
    (s.replAccesses.filter (fun a => !a.write)).length = (replTargets hsvfill).length :=
  ⟨length_filter_flatMap_of_one (fun _ => rfl) _, length_filter_flatMap_of_one (fun _ => rfl) _⟩

theorem fillAccesses_length (s : State) : s.fillAccesses.length = 240 := by
  rw [State.fillAccesses, List.length_map, fillWrites_length]

end Accesses

/-- Settles O31: every access is a pixel's, of index below W*H; step B is FILL's 240 writes and REPL's 38160 pairs. -/
theorem accessesStayInTheFramebuffer : Obligations.AccessesStayInTheFramebuffer := by
  refine ⟨fun s a h => ?_, fun s => ?_⟩
  · obtain ⟨i, hi⟩ | hf := mem_edgeAccesses h
    · exact inBounds_commandAccesses hi
    · exact inBounds_frameAccesses hf
  · obtain ⟨hfill, hfill'⟩ := fillAccesses_filter s
    obtain ⟨hrepl, hrepl'⟩ := replAccesses_count s.fillBody
    rw [State.frameAccesses, List.filter_append, List.filter_append, hfill, hfill', List.length_append,
      List.nil_append, fillAccesses_length, hrepl, hrepl', replTargets_length]
    exact ⟨rfl, rfl⟩

/-! ### The byte order of a pixel (R52) -/

section ByteOrder

variable (s : State) (i : Nat)

/-- R52: a pixel's byte at the higher address is its high half. -/
theorem pixelAt_eq_append :
    s.pixelAt i = s.byteAt (fbAddr hsvfill i + 1) ++ s.byteAt (fbAddr hsvfill i) := rfl

theorem byteAt_fbAddr : s.byteAt (fbAddr hsvfill i) = (s.pixelAt i).extractLsb' 0 8 := by
  rw [pixelAt_eq_append]
  exact (extractLsb'_eq_of_toNat (by rw [toNat_concat]; omega)).symm

theorem byteAt_fbAddr_succ : s.byteAt (fbAddr hsvfill i + 1) = (s.pixelAt i).extractLsb' 8 8 := by
  rw [pixelAt_eq_append]
  exact (extractLsb'_eq_of_toNat (by rw [toNat_concat]; omega)).symm

/-- One pixel written is a run of one pixel. -/
theorem memWrite_eq_writePixels (v : Pixel) : s.memWrite (fbAddr hsvfill i) v = s.writePixels i [v] := rfl

theorem pixelAt_memWrite (v : Pixel) : (s.memWrite (fbAddr hsvfill i) v).pixelAt i = v :=
  pixelAt_writePixels_inside s i [v] 0 v rfl

theorem byteAt_memWrite_of_ne (v : Pixel) {a : Nat} (h0 : a ≠ fbAddr hsvfill i) (h1 : a ≠ fbAddr hsvfill i + 1) :
    (s.memWrite (fbAddr hsvfill i) v).byteAt a = s.byteAt a := by
  rw [memWrite_eq_writePixels]
  refine byteAt_writePixels s i [v] a ?_
  simp only [fbAddr, List.length_singleton] at h0 h1 ⊢
  omega

end ByteOrder

/-- R52: the 32-bit word at `FB_BASE + 4*j` is pixel `2j+1` above pixel `2j`. -/
theorem word_eq_pixels (s : State) (j : Nat) :
    (s.byteAt (0x06000000 + 4 * j + 3) ++ s.byteAt (0x06000000 + 4 * j + 2) ++ s.byteAt (0x06000000 + 4 * j + 1) ++
      s.byteAt (0x06000000 + 4 * j) : Word) = s.pixelAt (2 * j + 1) ++ s.pixelAt (2 * j) := by
  have heven : fbAddr hsvfill (2 * j) = 0x06000000 + 4 * j := by simp only [fbAddr, hsvfill_fbBase]; omega
  have hodd : fbAddr hsvfill (2 * j + 1) = 0x06000000 + 4 * j + 2 := by simp only [fbAddr, hsvfill_fbBase]; omega
  rw [pixelAt_eq_append, pixelAt_eq_append, heven, hodd]
  refine BitVec.eq_of_toNat_eq ?_
  simp only [toNat_concat]
  ring

/-- Settles O32: a written pixel reads back, and a pixel's two bytes are its halves. -/
theorem pixelsAreLittleEndian : Obligations.PixelsAreLittleEndian := by
  refine ⟨fun s i v a => ⟨?_, ?_, pixelAt_memWrite s i v, byteAt_memWrite_of_ne s i v⟩, word_eq_pixels⟩
  · rw [byteAt_fbAddr, pixelAt_memWrite]
  · rw [byteAt_fbAddr_succ, pixelAt_memWrite]

end Sys2Proof.Machine

/-! PROOFS. The encoding (R70 to R76): each command's opcode, reserved field and operands in a word, what the decoder, the
encoder and the opcode map say of them, and the obligations on them. -/

namespace Sys2Proof

/-! ### A reserved field that must be zero (R74) -/

section UnlessReserved

variable {n : Nat} {rsv : BitVec n} {i : Instr}

theorem unlessReserved_eq_command_iff {j : Instr} : unlessReserved rsv i = .command j ↔ rsv = 0 ∧ i = j := by
  unfold unlessReserved
  split <;> simp_all

theorem unlessReserved_eq_reservedBits_iff : unlessReserved rsv i = .illegal .reservedBits ↔ rsv ≠ 0 := by
  unfold unlessReserved
  split <;> simp_all

theorem unlessReserved_ne_reservedOpcode : unlessReserved rsv i ≠ .illegal .reservedOpcode := by
  unfold unlessReserved
  split <;> simp

end UnlessReserved

/-! ### A word in the format of a command (R70, R71) -/

/-- The opcode of a command (R72). -/
@[simp] def Instr.opcode : Instr → BitVec 4
  | .conv _ _ _ => 1
  | .keys _ => 2
  | .vwait => 3
  | .fill => 4
  | .repl => 5
  | .frame _ => 6

/-- The reserved field of a word is zero, in the format of the command. -/
@[simp] def Instr.ReservedZero (w : Word) : Instr → Prop
  | .conv _ _ _ => rsvC w = 0
  | .keys _ | .frame _ => rsvK w = 0
  | .vwait | .fill | .repl => rsvN w = 0

/-- The command with a word's fields in place of its own operands. -/
@[simp] def Instr.withFields (w : Word) : Instr → Instr
  | .conv _ _ _ => .conv (hueField w) (satField w) (valField w)
  | .keys _ => .keys (keysField w)
  | .vwait => .vwait
  | .fill => .fill
  | .repl => .repl
  | .frame _ => .frame (keysField w)

/-- R72: which row a command stands in does not depend on its operands. -/
theorem row_withFields (w : Word) (i : Instr) : (i.withFields w).row = i.row := by cases i <;> rfl

/-- R73, R74: a word with a command's opcode and a zero reserved field decodes to that command, with its own fields. -/
theorem decode_of_opcode {w : Word} {i : Instr} (hop : opField w = i.opcode) (hrsv : i.ReservedZero w) :
    decode w = .command (i.withFields w) := by
  cases i <;> simp only [decode, hop] <;> exact unlessReserved_of_zero _ hrsv

/-- R76: the decoder gives a command for the words with its opcode, a zero reserved field, and its operands. -/
theorem decode_eq_command_iff {w : Word} {i : Instr} :
    decode w = .command i ↔ opField w = i.opcode ∧ i.ReservedZero w ∧ i.withFields w = i := by
  constructor
  · intro h
    rcases decode_cases w with
      ⟨hop, hd⟩ | ⟨hop, hd⟩ | ⟨hop, hd⟩ | ⟨hop, hd⟩ | ⟨hop, hd⟩ | ⟨hop, hd⟩ | ⟨-, hd⟩ <;> rw [hd] at h
    case inr.inr.inr.inr.inr.inr => cases h
    all_goals
      obtain ⟨hrsv, rfl⟩ := unlessReserved_eq_command_iff.1 h
      exact ⟨BitVec.eq_of_toNat_eq hop, hrsv, rfl⟩
  · rintro ⟨hop, hrsv, hi⟩
    rw [decode_of_opcode hop hrsv, hi]

/-! ### Decoding and encoding agree (R70, R71, R76) -/

/-- The fields of a word as digits of its number. -/
theorem toNat_fields (w : Word) :
    (opField w).toNat = w.toNat % 16 ∧ (hueField w).toNat = w.toNat / 16 % 32 ∧ (satField w).toNat = w.toNat / 512 % 32 ∧
    (valField w).toNat = w.toNat / 16384 % 32 ∧ (rsvC w).toNat = w.toNat / 524288 ∧ (rsvK w).toNat = w.toNat / 256 ∧
    (rsvN w).toNat = w.toNat / 16 := by
  have hw := w.isLt
  simp only [opField, hueField, satField, valField, rsvC, rsvK, rsvN, toNat_field]
  omega

theorem eq_encode_conv_iff (w : Word) (h s v : Channel) : w = encode (.conv h s v) ↔
    opField w = 1 ∧ rsvC w = 0 ∧ hueField w = h ∧ satField w = s ∧ valField w = v := by
  obtain ⟨hop, hhue, hsat, hval, hrsv, -, -⟩ := toNat_fields w
  simp only [← BitVec.toNat_inj, toNat_encode_conv, hop, hhue, hsat, hval, hrsv, BitVec.ofNat_eq_ofNat, BitVec.toNat_ofNat]
  omega

/-- Format K: the number of a word is its opcode and its keys' number exactly when its fields are these. -/
theorem toNat_eq_add_keyNumber_iff (w : Word) (op : BitVec 4) (k : Keys) : w.toNat = op.toNat + keyNumber k ↔
    opField w = op ∧ rsvK w = 0 ∧ keysField w = k := by
  obtain ⟨hop, -, -, -, -, hrsv, -⟩ := toNat_fields w
  have hk := keyNumber_lt k
  have hkeys : keysField w = k ↔ w.toNat / 16 % 16 * 16 = keyNumber k := by
    rw [← keyNumber_keysField]
    exact ⟨congrArg keyNumber, keyNumber_injective⟩
  simp only [hkeys, ← BitVec.toNat_inj, hop, hrsv, BitVec.ofNat_eq_ofNat, BitVec.toNat_ofNat]
  omega

/-- Format N: the number of a word is its opcode exactly when its reserved field is zero. -/
theorem toNat_eq_opcode_iff (w : Word) (op : BitVec 4) : w.toNat = op.toNat ↔ opField w = op ∧ rsvN w = 0 := by
  obtain ⟨hop, -, -, -, -, -, hrsv⟩ := toNat_fields w
  simp only [← BitVec.toNat_inj, hop, hrsv, BitVec.ofNat_eq_ofNat, BitVec.toNat_ofNat]
  omega

/-- A word is a command's word exactly when it has its opcode, a zero reserved field, and its operands. -/
theorem eq_encode_iff (w : Word) (i : Instr) :
    w = encode i ↔ opField w = i.opcode ∧ i.ReservedZero w ∧ i.withFields w = i := by
  cases i with
  | conv h s v => simpa using eq_encode_conv_iff w h s v
  | keys k =>
    rw [← BitVec.toNat_inj, toNat_encode_keys]
    simpa using toNat_eq_add_keyNumber_iff w 2 k
  | frame k =>
    rw [← BitVec.toNat_inj, toNat_encode_frame]
    simpa using toNat_eq_add_keyNumber_iff w 6 k
  | vwait => simpa [encode, ← BitVec.toNat_inj (x := w)] using toNat_eq_opcode_iff w 3
  | fill => simpa [encode, ← BitVec.toNat_inj (x := w)] using toNat_eq_opcode_iff w 4
  | repl => simpa [encode, ← BitVec.toNat_inj (x := w)] using toNat_eq_opcode_iff w 5

theorem decode_eq_command_iff_eq_encode {w : Word} {i : Instr} : decode w = .command i ↔ w = encode i :=
  decode_eq_command_iff.trans (eq_encode_iff w i).symm

theorem decode_encode (i : Instr) : decode (encode i) = .command i := decode_eq_command_iff_eq_encode.2 rfl

/-- Settles O1: both sides say that the word has the command's opcode, a zero reserved field, and its operands. -/
theorem decodeAndEncodeAgree : Obligations.DecodeAndEncodeAgree :=
  fun _ _ _ => decode_eq_command_iff_eq_encode

/-! ### Every word is a command or illegal (R75) -/

theorem decode_eq_reservedOpcode_iff (w : Word) :
    decode w = .illegal .reservedOpcode ↔ (opField w).toNat = 0 ∨ 7 ≤ (opField w).toNat := by
  rcases decode_cases w with
    ⟨hop, hd⟩ | ⟨hop, hd⟩ | ⟨hop, hd⟩ | ⟨hop, hd⟩ | ⟨hop, hd⟩ | ⟨hop, hd⟩ | ⟨hop, hd⟩ <;> rw [hd]
  case inr.inr.inr.inr.inr.inr => simp [hop]
  all_goals simp [unlessReserved_ne_reservedOpcode, hop]

theorem decode_eq_reservedBits_iff (w : Word) : decode w = .illegal .reservedBits ↔
    (opField w = 1 ∧ rsvC w ≠ 0) ∨ ((opField w = 2 ∨ opField w = 6) ∧ rsvK w ≠ 0) ∨
      ((opField w = 3 ∨ opField w = 4 ∨ opField w = 5) ∧ rsvN w ≠ 0) := by
  simp only [← BitVec.toNat_inj (x := opField w), BitVec.ofNat_eq_ofNat, BitVec.toNat_ofNat]
  rcases decode_cases w with
    ⟨hop, hd⟩ | ⟨hop, hd⟩ | ⟨hop, hd⟩ | ⟨hop, hd⟩ | ⟨hop, hd⟩ | ⟨hop, hd⟩ | ⟨hop, hd⟩ <;> rw [hd]
  case inr.inr.inr.inr.inr.inr => exact iff_of_false (by decide) (by omega)
  all_goals simp [unlessReserved_eq_reservedBits_iff, hop]

/-- Settles O2: the decoder's answer by opcode and reserved field; what is neither illegal with cause 1 nor with cause 2 is
a command. -/
theorem everyWordIsACommandOrIllegal : Obligations.EveryWordIsACommandOrIllegal := by
  refine fun w => ⟨decode_eq_reservedOpcode_iff w, decode_eq_reservedBits_iff w, ?_⟩
  cases hd : decode w with
  | command i => simp
  | illegal c => cases c <;> simp

/-! ### The opcode map (R72) -/

/-- A word is the three fields of a format, from bit 31 down: reserved, operands, opcode. -/
theorem eq_append_fields {m n : Nat} (w : BitVec (m + n + 4)) :
    w = w.extractLsb' (n + 4) m ++ w.extractLsb' 4 n ++ w.extractLsb' 0 4 := by
  rw [BitVec.extractLsb'_append_extractLsb'_eq_extractLsb' (by omega),
    BitVec.extractLsb'_append_extractLsb'_eq_extractLsb' (by omega), BitVec.extractLsb'_eq_self]

/-- A mask of ones over the reserved field and the opcode keeps these two fields. -/
theorem and_mask_eq_append {m n : Nat} (w : BitVec (m + n + 4)) :
    w &&& (BitVec.allOnes m ++ 0#n ++ BitVec.allOnes 4) = w.extractLsb' (n + 4) m ++ 0#n ++ w.extractLsb' 0 4 := by
  conv_lhs => rw [eq_append_fields w, BitVec.and_append, BitVec.and_append]
  simp only [BitVec.and_allOnes, BitVec.and_zero]

theorem and_mask_eq_iff {m n : Nat} (w : BitVec (m + n + 4)) (op : BitVec 4) :
    w &&& (BitVec.allOnes m ++ 0#n ++ BitVec.allOnes 4) = 0#m ++ 0#n ++ op ↔
      w.extractLsb' 0 4 = op ∧ w.extractLsb' (n + 4) m = 0 := by
  rw [and_mask_eq_append]
  constructor
  · intro h
    have hop := congrArg (BitVec.extractLsb' 0 4) h
    rw [BitVec.extractLsb'_append_eq_right, BitVec.extractLsb'_append_eq_right] at hop
    rw [hop, BitVec.append_left_inj, BitVec.append_left_inj] at h
    exact ⟨hop, h⟩
  · rintro ⟨hop, hrsv⟩
    rw [hop, hrsv]
    rfl

/-- R72: a row covers the words with its command's opcode and a zero reserved field. -/
theorem covers_row_iff (w : Word) (i : Instr) : i.row.covers w = true ↔ opField w = i.opcode ∧ i.ReservedZero w := by
  rw [OpRow.covers, beq_iff_eq]
  cases i with
  | conv h s v => exact and_mask_eq_iff (m := 13) (n := 15) w 1
  | keys k => exact and_mask_eq_iff (m := 24) (n := 4) w 2
  | frame k => exact and_mask_eq_iff (m := 24) (n := 4) w 6
  | vwait => exact and_mask_eq_iff (m := 28) (n := 0) w 3
  | fill => exact and_mask_eq_iff (m := 28) (n := 0) w 4
  | repl => exact and_mask_eq_iff (m := 28) (n := 0) w 5

/-- R72: the rows are the six commands' rows. -/
theorem exists_row_of_mem_opcodeMap {r : OpRow} (h : r ∈ opcodeMap) : ∃ i : Instr, i.row = r := by
  simp only [opcodeMap, List.mem_cons, List.not_mem_nil, or_false] at h
  rcases h with rfl | rfl | rfl | rfl | rfl | rfl <;> exact ⟨_, rfl⟩

/-- R72: a row covers the words that decode to a command of the row. -/
theorem covers_iff_decode {w : Word} {r : OpRow} (hr : r ∈ opcodeMap) :
    r.covers w = true ↔ ∃ i, decode w = .command i ∧ i.row = r := by
  constructor
  · intro hc
    obtain ⟨i, rfl⟩ := exists_row_of_mem_opcodeMap hr
    obtain ⟨hop, hrsv⟩ := (covers_row_iff w i).1 hc
    exact ⟨i.withFields w, decode_of_opcode hop hrsv, row_withFields w i⟩
  · rintro ⟨i, hd, rfl⟩
    obtain ⟨hop, hrsv, -⟩ := decode_eq_command_iff.1 hd
    exact (covers_row_iff w i).2 ⟨hop, hrsv⟩

theorem opcode_bounds (i : Instr) : 1 ≤ i.opcode.toNat ∧ i.opcode.toNat ≤ 6 := by
  cases i <;> simp

/-- Settles O3: a row covers a word exactly when the word decodes to a command of the row; so its opcode is a command's,
and two rows covering one word are the row of the one command it decodes to. -/
theorem opcodeMapDecidesTheCommand : Obligations.OpcodeMapDecidesTheCommand := by
  refine ⟨rfl, fun w r hr hc => ?_, fun w r => covers_iff_decode, fun w r r' hr hr' hc hc' => ?_⟩
  · obtain ⟨i, rfl⟩ := exists_row_of_mem_opcodeMap hr
    obtain ⟨hop, -⟩ := (covers_row_iff w i).1 hc
    exact (congrArg BitVec.toNat hop).symm ▸ opcode_bounds i
  · obtain ⟨i, hd, rfl⟩ := (covers_iff_decode hr).1 hc
    obtain ⟨i', hd', rfl⟩ := (covers_iff_decode hr').1 hc'
    cases hd.symm.trans hd'
    rfl

/-! ### The spec's own words (R77, R78) -/

/-- Settles O4: each command word is its command's `encode`, and the illegal words have these opcodes and reserved bits. -/
theorem specWordsDecode : Obligations.SpecWordsDecode := by
  simp only [Obligations.SpecWordsDecode, decode_eq_command_iff_eq_encode, decode_eq_reservedOpcode_iff,
    decode_eq_reservedBits_iff]
  decide

/-- No key held selects no branch of the update (R122). -/
theorem applyKeys_none (s : Machine.State) : s.applyKeys Keys.none = s := rfl

/-- Settles O17: the word is `KEYS none`'s, and the update for no key changes nothing. -/
theorem nopChangesNothing : Obligations.NopChangesNothing :=
  ⟨decode_encode (.keys Keys.none), fun s => congrArg Host.Outcome.next (applyKeys_none s)⟩

end Sys2Proof

/-! PROOFS. The assembler (R77, R78): the word and the meaning of a line, the reading of a line's text, and the obligations
on them. -/

namespace Sys2Proof.Machine

/-! ### The word a line assembles to (R77) -/

theorem assemble_of_wf {l : AsmLine} (h : l.wf = true) : assemble l = some l.bits := if_pos h

theorem assemble_conv_of_out_of_range {h s v : Nat} (hout : 31 < h ∨ 31 < s ∨ 31 < v) : assemble (.conv h s v) = none := by
  have hwf : ¬ (AsmLine.conv h s v).wf = true := by
    simp only [AsmLine.wf, decide_eq_true_eq]
    omega
  exact if_neg hwf

/-- R77: CONV's fields do not overlap, so joining them is adding them. -/
theorem toNat_bits_conv {h s v : Nat} (hh : h ≤ 31) (hs : s ≤ 31) (hv : v ≤ 31) :
    (AsmLine.conv h s v).bits.toNat = 1 + 16 * h + 512 * s + 16384 * v := by
  have hhue : 1 ||| h <<< 4 = h <<< 4 + 1 := by
    rw [Nat.or_comm, ← Nat.shiftLeft_add_eq_or_of_lt (by decide)]
  have hsat : 1 ||| h <<< 4 ||| s <<< 9 = s <<< 9 + (h <<< 4 + 1) := by
    rw [hhue, Nat.or_comm, ← Nat.shiftLeft_add_eq_or_of_lt (by omega)]
  have hval : 1 ||| h <<< 4 ||| s <<< 9 ||| v <<< 14 = v <<< 14 + (s <<< 9 + (h <<< 4 + 1)) := by
    rw [hsat, Nat.or_comm, ← Nat.shiftLeft_add_eq_or_of_lt (by omega)]
  rw [AsmLine.bits, hval, BitVec.toNat_ofNat]
  omega

theorem bits_conv_eq_encode {h s v : Nat} (hh : h ≤ 31) (hs : s ≤ 31) (hv : v ≤ 31) :
    (AsmLine.conv h s v).bits = encode (.conv (BitVec.ofNat 5 h) (BitVec.ofNat 5 s) (BitVec.ofNat 5 v)) := by
  refine BitVec.eq_of_toNat_eq ?_
  rw [toNat_bits_conv hh hs hv, toNat_encode_conv]
  simp only [BitVec.toNat_ofNat]
  omega

/-- The snapshot that holds the named keys and no other. -/
def keysNamed (ks : List KeyName) : Keys :=
  ⟨decide (.up ∈ ks), decide (.down ∈ ks), decide (.left ∈ ks), decide (.right ∈ ks)⟩

/-- R77: `keybits` is the number of the named keys' snapshot; a key named twice sets its bit once. -/
theorem keybitsOf_eq_keyNumber (ks : List KeyName) : keybitsOf ks = keyNumber (keysNamed ks) := by
  induction ks with
  | nil => rfl
  | cons k ks ih =>
    have hcons : keybitsOf (k :: ks) = k.bit ||| keyNumber (keysNamed ks) := congrArg (k.bit ||| ·) ih
    rw [hcons]
    simp only [keysNamed, List.mem_cons, Bool.decide_or]
    generalize decide (.up ∈ ks) = u, decide (.down ∈ ks) = d, decide (.left ∈ ks) = l, decide (.right ∈ ks) = r
    clear ih hcons
    cases k <;> decide +revert

/-- Format K: an opcode does not overlap the keys' bits, so joining them is adding them. -/
theorem or_keyNumber (op : Nat) (hop : op < 16) (k : Keys) : op ||| keyNumber k = op + keyNumber k := by
  have hk : keyNumber k = (keyNumber k / 16) <<< 4 := by
    have := keyNumber_lt k
    omega
  rw [Nat.or_comm, hk, ← Nat.shiftLeft_add_eq_or_of_lt hop, Nat.add_comm]

theorem toNat_ofNat_or_keybitsOf (op : Nat) (hop : op < 16) (ks : List KeyName) :
    (BitVec.ofNat 32 (op ||| keybitsOf ks)).toNat = op + keyNumber (keysNamed ks) := by
  have hk := keyNumber_lt (keysNamed ks)
  rw [keybitsOf_eq_keyNumber, or_keyNumber op hop, BitVec.toNat_ofNat]
  omega

theorem bits_keys_eq_encode (ks : List KeyName) : (AsmLine.keys ks).bits = encode (.keys (keysNamed ks)) :=
  BitVec.eq_of_toNat_eq ((toNat_ofNat_or_keybitsOf 2 (by decide) ks).trans (toNat_encode_keys _).symm)

theorem bits_frame_eq_encode (ks : List KeyName) : (AsmLine.frame ks).bits = encode (.frame (keysNamed ks)) :=
  BitVec.eq_of_toNat_eq ((toNat_ofNat_or_keybitsOf 6 (by decide) ks).trans (toNat_encode_frame _).symm)

theorem map_decode_assemble {l : AsmLine} {i : Instr} (hwf : l.wf = true) (h : l.bits = encode i) :
    (assemble l).map decode = some (.command i) := by
  rw [assemble_of_wf hwf, Option.map_some, h, decode_encode]

/-- Settles O5: a line's word is the `encode` of the command it means. -/
theorem assembledLinesDecode : Obligations.AssembledLinesDecode := by
  refine ⟨fun h s v ⟨hh, hs, hv⟩ => ?_, fun h s v => assemble_conv_of_out_of_range, fun ks => ?_,
    map_decode_assemble rfl rfl, map_decode_assemble rfl rfl, map_decode_assemble rfl rfl, map_decode_assemble rfl rfl,
    rfl, fun w => rfl⟩
  · exact ⟨_, assemble_of_wf (decide_eq_true ⟨hh, hs, hv⟩), toNat_bits_conv hh hs hv,
      decode_eq_command_iff_eq_encode.2 (bits_conv_eq_encode hh hs hv)⟩
  · exact ⟨_, _, assemble_of_wf rfl, assemble_of_wf rfl, decode_eq_command_iff_eq_encode.2 (bits_keys_eq_encode ks),
      decode_eq_command_iff_eq_encode.2 (bits_frame_eq_encode ks)⟩

/-! ### Tokens (R77, log 7) -/

/-- The characters that end a word. -/
def separators : List Char := ['#', ',', '|', ' ', '\t']

/-- A word: at least one character, and none that ends a word. -/
def IsWord (cs : List Char) : Prop := cs ≠ [] ∧ ∀ c ∈ cs, c ∉ separators

theorem flushWord_nil (ts : List Token) : flushWord [] ts = ts := rfl

theorem flushWord_reverse {cs : List Char} (h : cs ≠ []) (ts : List Token) : flushWord cs.reverse ts = .word cs :: ts := by
  simp [flushWord, h]

theorem lexLine_space (acc cs : List Char) : lexLine acc (' ' :: cs) = flushWord acc (lexLine [] cs) := rfl
theorem lexLine_comma (acc cs : List Char) : lexLine acc (',' :: cs) = flushWord acc (.comma :: lexLine [] cs) := rfl
theorem lexLine_bar (acc cs : List Char) : lexLine acc ('|' :: cs) = flushWord acc (.bar :: lexLine [] cs) := rfl
theorem lexLine_nil (acc : List Char) : lexLine acc [] = flushWord acc [] := rfl
theorem lexLine_hash (acc cs : List Char) : lexLine acc ('#' :: cs) = lexLine acc [] := rfl

theorem lexLine_cons_of_not_separator {c : Char} (h : c ∉ separators) (acc cs : List Char) :
    lexLine acc (c :: cs) = lexLine (c :: acc) cs := by
  simp only [separators, List.mem_cons, List.not_mem_nil, or_false, not_or] at h
  obtain ⟨hhash, hcomma, hbar, hspace, htab⟩ := h
  simp [lexLine, hhash, hcomma, hbar, hspace, htab]

/-- The characters of a word gather in front of what follows. -/
theorem lexLine_append {cs : List Char} (h : ∀ c ∈ cs, c ∉ separators) (acc rest : List Char) :
    lexLine acc (cs ++ rest) = lexLine (cs.reverse ++ acc) rest := by
  induction cs generalizing acc with
  | nil => rfl
  | cons c cs ih =>
    obtain ⟨hc, hcs⟩ := List.forall_mem_cons.1 h
    rw [List.cons_append, lexLine_cons_of_not_separator hc, ih hcs, List.reverse_cons, List.append_assoc,
      List.singleton_append]

/-- Where the text after a word ends it, the word is the first token. -/
theorem lexLine_word_append {cs rest : List Char} {ts : List Token} (h : IsWord cs)
    (hrest : ∀ acc, lexLine acc rest = flushWord acc ts) : lexLine [] (cs ++ rest) = .word cs :: ts := by
  rw [lexLine_append h.2, List.append_nil, hrest, flushWord_reverse h.1]

theorem lexLine_word {cs : List Char} (h : IsWord cs) : lexLine [] cs = [.word cs] := by
  simpa using lexLine_word_append h lexLine_nil

theorem lexLine_word_space {cs : List Char} (h : IsWord cs) (rest : List Char) :
    lexLine [] (cs ++ ' ' :: rest) = .word cs :: lexLine [] rest :=
  lexLine_word_append h (lexLine_space · rest)

theorem lexLine_word_comma {cs : List Char} (h : IsWord cs) (rest : List Char) :
    lexLine [] (cs ++ ',' :: rest) = .word cs :: .comma :: lexLine [] rest :=
  lexLine_word_append h (lexLine_comma · rest)

theorem lexLine_word_bar {cs : List Char} (h : IsWord cs) (rest : List Char) :
    lexLine [] (cs ++ '|' :: rest) = .word cs :: .bar :: lexLine [] rest :=
  lexLine_word_append h (lexLine_bar · rest)

/-- R77: `#` starts a comment, wherever it stands. -/
theorem lexLine_comment (acc cs ds : List Char) (h : '#' ∉ cs) : lexLine acc (cs ++ '#' :: ds) = lexLine acc cs := by
  induction cs generalizing acc with
  | nil => exact lexLine_hash acc ds
  | cons c cs ih =>
    obtain ⟨hc, hcs⟩ := not_or.1 (mt List.mem_cons.2 h)
    simp only [List.cons_append, lexLine, ih _ hcs]

/-! ### Numbers (R77) -/

theorem digitOf_digitChar {base d : Nat} (hbase : base ≤ 16) (hd : d < base) : digitOf base (Nat.digitChar d) = some d := by
  have hd16 : d < 16 := by omega
  interval_cases d <;> exact if_pos hd

theorem digitsFrom_append (base n : Nat) (cs ds : List Char) :
    digitsFrom base n (cs ++ ds) = (digitsFrom base n cs).bind (fun m => digitsFrom base m ds) := by
  induction cs generalizing n with
  | nil => rfl
  | cons c cs ih => simp only [List.cons_append, digitsFrom, ih, Option.bind_assoc]

theorem digitsFrom_append_digit {base n m d : Nat} {cs : List Char} (hbase : base ≤ 16) (hd : d < base)
    (h : digitsFrom base n cs = some m) : digitsFrom base n (cs ++ [Nat.digitChar d]) = some (m * base + d) := by
  simp [digitsFrom_append, h, digitsFrom, digitOf_digitChar hbase hd]

/-- A number without its last digit, and that digit. -/
theorem toDigits_eq_append {base n : Nat} (h1 : 1 < base) (h : base ≤ n) :
    Nat.toDigits base n = Nat.toDigits base (n / base) ++ [Nat.digitChar (n % base)] := by
  have hmod : n % base < base := Nat.mod_lt n (by omega)
  rw [← Nat.toDigits_of_lt_base hmod, Nat.toDigits_append_toDigits h1 (Nat.div_pos h (by omega)) hmod, Nat.div_add_mod]

theorem digitsFrom_toDigits {base : Nat} (h1 : 1 < base) (h16 : base ≤ 16) (n : Nat) :
    digitsFrom base 0 (Nat.toDigits base n) = some n := by
  induction n using Nat.strong_induction_on with
  | _ n ih =>
    by_cases hn : n < base
    · rw [Nat.toDigits_of_lt_base hn]
      simpa using digitsFrom_append_digit (n := 0) (cs := []) h16 hn rfl
    · have hn' := Nat.le_of_not_lt hn
      have hdigit : n % base < base := Nat.mod_lt n (by omega)
      have hrest := ih (n / base) (Nat.div_lt_self (by omega) h1)
      rw [toDigits_eq_append h1 hn', digitsFrom_append_digit h16 hdigit hrest, Nat.div_add_mod']

/-- The characters of digits. -/
theorem mem_toDigits {base n : Nat} (h1 : 1 < base) {c : Char} (hc : c ∈ Nat.toDigits base n) :
    ∃ d < base, c = Nat.digitChar d := by
  induction n using Nat.strong_induction_on with
  | _ n ih =>
    by_cases hn : n < base
    · rw [Nat.toDigits_of_lt_base hn, List.mem_singleton] at hc
      exact ⟨n, hn, hc⟩
    · rw [toDigits_eq_append h1 (Nat.le_of_not_lt hn), List.mem_append, List.mem_singleton] at hc
      rcases hc with hc | hc
      · exact ih _ (Nat.div_lt_self (by omega) h1) hc
      · exact ⟨_, Nat.mod_lt n (by omega), hc⟩

theorem digitChar_not_separator : ∀ d < 16, Nat.digitChar d ∉ separators := by decide

theorem digitChar_ne_x : ∀ d < 16, Nat.digitChar d ≠ 'x' := by decide

theorem isWord_toDigits {base : Nat} (h1 : 1 < base) (h16 : base ≤ 16) (n : Nat) : IsWord (Nat.toDigits base n) := by
  refine ⟨Nat.toDigits_ne_nil, fun c hc => ?_⟩
  obtain ⟨d, hd, rfl⟩ := mem_toDigits h1 hc
  exact digitChar_not_separator d (by omega)

/-- `0x` in front of a word is a word. -/
theorem isWord_hex {cs : List Char} (h : ∀ c ∈ cs, c ∉ separators) : IsWord ('0' :: 'x' :: cs) := by
  refine ⟨List.cons_ne_nil _ _, ?_⟩
  simp only [List.forall_mem_cons]
  exact ⟨by decide, by decide, h⟩

/-- A numeral without an `x` is read in decimal. -/
theorem numberOf_decimal {ds : List Char} (hne : ds ≠ []) (hx : 'x' ∉ ds) : numberOf ds = digitsFrom 10 0 ds := by
  unfold numberOf
  split
  · contradiction
  · simp at hx
  · simp at hx
  · rfl

theorem numberOf_hex {ds : List Char} (hne : ds ≠ []) : numberOf ('0' :: 'x' :: ds) = digitsFrom 16 0 ds := by
  cases ds with
  | nil => contradiction
  | cons d ds => rfl

theorem numberOf_decimalText (n : Nat) : numberOf (decimalText n) = some n := by
  have hx : 'x' ∉ decimalText n := by
    intro hx
    obtain ⟨d, hd, hdx⟩ := mem_toDigits (by decide) hx
    exact digitChar_ne_x d (by omega) hdx.symm
  exact (numberOf_decimal Nat.toDigits_ne_nil hx).trans (digitsFrom_toDigits (by decide) (by decide) n)

theorem numberOf_hexText (n : Nat) : numberOf (hexText n) = some n := by
  rw [hexText, numberOf_hex Nat.toDigits_ne_nil]
  exact digitsFrom_toDigits (by decide) (by decide) n

/-- R77: both ways to write a number are one word, read as that number. -/
theorem number_text {n : Nat} {cs : List Char} (h : cs = decimalText n ∨ cs = hexText n) :
    IsWord cs ∧ numberOf cs = some n := by
  rcases h with rfl | rfl
  · exact ⟨isWord_toDigits (by decide) (by decide) n, numberOf_decimalText n⟩
  · exact ⟨isWord_hex (isWord_toDigits (by decide) (by decide) n).2, numberOf_hexText n⟩

/-! ### `.word` (R77) -/

/-- The first `k` of a number's eight hexadecimal digits. -/
def leadingHexDigits (n k : Nat) : List Char := (List.range k).map (fun i => Nat.digitChar (n / 16 ^ (7 - i) % 16))

theorem leadingHexDigits_succ (n k : Nat) :
    leadingHexDigits n (k + 1) = leadingHexDigits n k ++ [Nat.digitChar (n / 16 ^ (7 - k) % 16)] := by
  simp [leadingHexDigits, List.range_succ]

theorem length_leadingHexDigits (n k : Nat) : (leadingHexDigits n k).length = k := by simp [leadingHexDigits]

theorem wordText_eq (w : Word) : wordText w = '0' :: 'x' :: leadingHexDigits w.toNat 8 := rfl

/-- The first `k` digits read as the number without its last `8 - k`. -/
theorem digitsFrom_leadingHexDigits {n : Nat} (hn : n < 16 ^ 8) (k : Nat) (hk : k ≤ 8) :
    digitsFrom 16 0 (leadingHexDigits n k) = some (n / 16 ^ (8 - k)) := by
  induction k with
  | zero => exact congrArg some (Nat.div_eq_of_lt hn).symm
  | succ k ih =>
    have hdigit : n / 16 ^ (7 - k) % 16 < 16 := Nat.mod_lt _ (by decide)
    have hdrop : n / 16 ^ (8 - k) = n / 16 ^ (7 - k) / 16 := by
      rw [Nat.div_div_eq_div_mul, ← Nat.pow_succ, show (7 - k).succ = 8 - k by omega]
    rw [leadingHexDigits_succ, digitsFrom_append_digit (by decide) hdigit (ih (by omega)), hdrop, Nat.div_add_mod',
      show 8 - (k + 1) = 7 - k by omega]

theorem wordOf_wordText (w : Word) : wordOf (wordText w) = some w := by
  have hdigits := digitsFrom_leadingHexDigits w.isLt 8 (by decide)
  simp [wordOf, wordText_eq, length_leadingHexDigits, hdigits]

theorem isWord_wordText (w : Word) : IsWord (wordText w) := by
  refine isWord_hex fun c hc => ?_
  obtain ⟨i, -, rfl⟩ := List.mem_map.1 hc
  exact digitChar_not_separator _ (Nat.mod_lt _ (by decide))

/-! ### Key lists (R77) -/

theorem isWord_keyName (k : KeyName) : IsWord k.text := by
  cases k <;> exact ⟨by decide, by simp [KeyName.text, separators]⟩

@[simp] theorem keyNameOf_text (k : KeyName) : keyNameOf k.text = some k := by cases k <;> decide

/-- The tokens of a key list begin with its first key's name. -/
theorem lexLine_keyListText (k : KeyName) (ks : List KeyName) :
    ∃ ts, lexLine [] (keyListText (k :: ks)) = .word k.text :: ts ∧ keyListOf (.word k.text :: ts) = some (k :: ks) := by
  induction ks generalizing k with
  | nil => exact ⟨[], lexLine_word (isWord_keyName k), by simp [keyListOf]⟩
  | cons k' ks ih =>
    obtain ⟨ts, hlex, hlist⟩ := ih k'
    refine ⟨.bar :: .word k'.text :: ts, ?_, by simp [keyListOf, hlist]⟩
    rw [keyListText, lexLine_word_bar (isWord_keyName k), hlex]
    simp

theorem keysOperand_keyListText (ks : List KeyName) : keysOperand (lexLine [] (keyListText ks)) = some ks := by
  cases ks with
  | nil => decide
  | cons k ks =>
    obtain ⟨ts, hlex, hlist⟩ := lexLine_keyListText k ks
    have hnone : ¬ (Token.word k.text :: ts = [] ∨ Token.word k.text :: ts = [.word ['n', 'o', 'n', 'e']]) := by
      cases k <;> simp [KeyName.text]
    rw [hlex, keysOperand, if_neg hnone, hlist]

/-! ### Whole lines (R77) -/

/-- A command's name, a space, and its operands. -/
theorem parseLine_command {m : List Char} (hm : IsWord m) (operands : List Char) :
    parseLine (m ++ ' ' :: operands) = (commandLine m (lexLine [] operands)).map some := by
  rw [parseLine, lexLine_word_space hm]
  rfl

theorem lexLine_conv_operands {a b c : List Char} (ha : IsWord a) (hb : IsWord b) (hc : IsWord c) :
    lexLine [] (a ++ ',' :: ' ' :: (b ++ ',' :: ' ' :: c)) = [.word a, .comma, .word b, .comma, .word c] := by
  simp only [lexLine_word_comma ha, lexLine_word_comma hb, lexLine_space, flushWord_nil, lexLine_word hc]

theorem parseLine_conv {h s v : Nat} {a b c : List Char} (ha : a = decimalText h ∨ a = hexText h)
    (hb : b = decimalText s ∨ b = hexText s) (hc : c = decimalText v ∨ c = hexText v) :
    parseLine (['C', 'O', 'N', 'V', ' '] ++ a ++ [',', ' '] ++ b ++ [',', ' '] ++ c) = some (some (.conv h s v)) := by
  obtain ⟨ha, hna⟩ := number_text ha
  obtain ⟨hb, hnb⟩ := number_text hb
  obtain ⟨hc, hnc⟩ := number_text hc
  have hline : ['C', 'O', 'N', 'V', ' '] ++ a ++ [',', ' '] ++ b ++ [',', ' '] ++ c =
      ['C', 'O', 'N', 'V'] ++ ' ' :: (a ++ ',' :: ' ' :: (b ++ ',' :: ' ' :: c)) := by simp
  rw [hline, parseLine_command ⟨by decide, by simp [separators]⟩, lexLine_conv_operands ha hb hc]
  simp [commandLine, convOperands, hna, hnb, hnc]

theorem parseLine_keys (ks : List KeyName) :
    parseLine (['K', 'E', 'Y', 'S', ' '] ++ keyListText ks) = some (some (.keys ks)) := by
  have h := parseLine_command (m := ['K', 'E', 'Y', 'S']) ⟨by decide, by simp [separators]⟩ (keyListText ks)
  simpa [commandLine, keysOperand_keyListText] using h

theorem parseLine_frame (ks : List KeyName) :
    parseLine (['F', 'R', 'A', 'M', 'E', ' '] ++ keyListText ks) = some (some (.frame ks)) := by
  have h := parseLine_command (m := ['F', 'R', 'A', 'M', 'E']) ⟨by decide, by simp [separators]⟩ (keyListText ks)
  simpa [commandLine, keysOperand_keyListText] using h

theorem parseLine_word (w : Word) : parseLine (['.', 'w', 'o', 'r', 'd', ' '] ++ wordText w) = some (some (.word w)) := by
  have h := parseLine_command (m := ['.', 'w', 'o', 'r', 'd']) ⟨by decide, by simp [separators]⟩ (wordText w)
  simpa [commandLine, lexLine_word (isWord_wordText w), wordOf_wordText] using h

/-- Settles O55: each operand's text is read back as the operand, and the lexer stops at `#`. -/
theorem assemblerTextReadsAsItsLine : Obligations.AssemblerTextReadsAsItsLine :=
  ⟨fun _ _ _ _ _ _ => parseLine_conv, fun ks => ⟨parseLine_keys ks, parseLine_frame ks⟩, by decide, by decide, by decide,
    by decide, by decide, by decide, parseLine_word, fun cs ds h => congrArg parseTokens (lexLine_comment [] cs ds h)⟩

end Sys2Proof.Machine

/-! PROOFS. The converter (R100 to R109) and what CONV, KEYS, VWAIT and FRAME leave unchanged: bounds of the offset and
of the interpolated values, the selection by region, RES as a number, and the obligations on them. -/

namespace Sys2Proof.Machine

/-! ### The offset (R101, R103) -/

section Offset

variable {c : Config}

/-- A table of 32 entries has one for every hue. -/
theorem offsetOf_eq_getElem (hlen : c.offsetTab.length = 32) (h : Channel) :
    offsetOf c h = 6 * c.offsetTab[h.toNat]'(hlen ▸ h.isLt) := by
  rw [offsetOf, List.getD_eq_getElem]

/-- R103: the offset is at most 30 for every hue only when every entry is at most 5. -/
theorem forall_offsetOf_le_iff (hlen : c.offsetTab.length = 32) :
    (∀ h, offsetOf c h ≤ 30) ↔ ∀ o ∈ c.offsetTab, o ≤ 5 := by
  refine ⟨fun hle o ho => ?_, fun hle h => ?_⟩
  · obtain ⟨i, hi, rfl⟩ := List.getElem_of_mem ho
    have hhue : (BitVec.ofNat 5 i).toNat = i := Nat.mod_eq_of_lt (hi.trans_eq hlen)
    have hi30 := hle (BitVec.ofNat 5 i)
    simp only [offsetOf_eq_getElem hlen, hhue] at hi30
    omega
  · have hentry := hle _ (List.getElem_mem (hlen ▸ h.isLt : h.toNat < c.offsetTab.length))
    rw [offsetOf_eq_getElem hlen]
    omega

theorem offsetOf_le_of_legal (hc : c.legal = true) (h : Channel) : offsetOf c h ≤ 30 := by
  obtain ⟨-, hlen, -, hentries, -⟩ := c.legal_iff.mp hc
  exact (forall_offsetOf_le_iff hlen).mpr hentries h

/-- R8: a table with an entry above 5 is refused. -/
theorem admission_of_offset_gt (h : ∃ o ∈ c.offsetTab, 5 < o) : c.admission = none := by
  refine Config.admission_of_not_legal fun hc => ?_
  obtain ⟨-, -, -, hentries, -⟩ := c.legal_iff.mp hc
  obtain ⟨o, ho, hgt⟩ := h
  exact Nat.not_lt.mpr (hentries o ho) hgt

end Offset

/-- The bound of R102's products: a 5-bit number is at most 31. -/
theorem toNat_mul_le (x : Channel) {n b : Nat} (hn : n ≤ b) : x.toNat * n ≤ 31 * b :=
  Nat.mul_le_mul (Nat.le_of_lt_succ x.isLt) hn

/-- Settles O7: a legal offset is at most 30, so the products are at most 31 * 30 and 31 * 31. -/
theorem noConverterSubtractionGoesBelowZero : Obligations.NoConverterSubtractionGoesBelowZero := by
  refine ⟨fun c h s hc => ?_, fun c hlen => ⟨forall_offsetOf_le_iff hlen, admission_of_offset_gt⟩⟩
  have hlegal : c.legal = true := hc.elim id fun heq => heq ▸ hsvfill_legal
  have hoffset := offsetOf_le_of_legal hlegal h
  have hq := toNat_mul_le s hoffset
  have ht := toNat_mul_le s (Nat.sub_le 31 (offsetOf c h))
  omega

/-! ### The interpolated values (R102, R108) -/

section Interpolation

/-- The shape of p, q and t: scaling by at most 31/32 gives no more than there was. -/
theorem scaled_le (v x : Nat) : v * (31 - x) / 32 ≤ v :=
  Nat.div_le_of_le_mul (by rw [Nat.mul_comm]; exact Nat.mul_le_mul_right v (by omega))

theorem scaled_le_thirty (v : Channel) (x : Nat) : v.toNat * (31 - x) / 32 ≤ 30 := by
  have hprod := toNat_mul_le v (Nat.sub_le 31 x)
  omega

variable (s v o : Nat)

theorem interP_le : interP s v ≤ v := scaled_le v s
theorem interQ_le : interQ s v o ≤ v := scaled_le v _
theorem interT_le : interT s v o ≤ v := scaled_le v _

end Interpolation

section Narrowing

variable (s : Nat) (v : Channel) (o : Nat)

theorem interP_le_thirty : interP s v.toNat ≤ 30 := scaled_le_thirty v s
theorem interQ_le_thirty : interQ s v.toNat o ≤ 30 := scaled_le_thirty v _
theorem interT_le_thirty : interT s v.toNat o ≤ 30 := scaled_le_thirty v _

/-- What is at most 30 is held in 5 bits without loss. -/
theorem toNat_ofNat_of_le_thirty {n : Nat} (h : n ≤ 30) : (BitVec.ofNat 5 n).toNat = n :=
  Nat.mod_eq_of_lt (by omega)

theorem toNat_ofNat_interP : (BitVec.ofNat 5 (interP s v.toNat)).toNat = interP s v.toNat :=
  toNat_ofNat_of_le_thirty (interP_le_thirty s v)

theorem toNat_ofNat_interQ : (BitVec.ofNat 5 (interQ s v.toNat o)).toNat = interQ s v.toNat o :=
  toNat_ofNat_of_le_thirty (interQ_le_thirty s v o)

theorem toNat_ofNat_interT : (BitVec.ofNat 5 (interT s v.toNat o)).toNat = interT s v.toNat o :=
  toNat_ofNat_of_le_thirty (interT_le_thirty s v o)

end Narrowing

/-- Settles O8: every product is at most 31 * 31 = 961, and p, q and t are at most 30. -/
theorem converterValuesFitTheirWidths : Obligations.ConverterValuesFitTheirWidths := by
  intro h s v
  have hoffset := offsetOf_le_of_legal hsvfill_legal h
  have hsq := toNat_mul_le s hoffset
  have hst := toNat_mul_le s (Nat.sub_le 31 (offsetOf hsvfill h))
  have hp := toNat_mul_le v (Nat.sub_le 31 s.toNat)
  have hq := toNat_mul_le v (Nat.sub_le 31 (s.toNat * offsetOf hsvfill h / 32))
  have ht := toNat_mul_le v (Nat.sub_le 31 (s.toNat * (31 - offsetOf hsvfill h) / 32))
  exact ⟨hp, hsq, hst, interP_le_thirty _ v, by omega, (interQ_le_thirty _ v _).trans (by decide), by omega,
    (interT_le_thirty _ v _).trans (by decide), by omega, by omega, toNat_ofNat_interP _ v, toNat_ofNat_interQ _ v _,
    toNat_ofNat_interT _ v _, Nat.le_of_lt_succ (BitVec.isLt _), Nat.le_of_lt_succ (BitVec.isLt _),
    Nat.le_of_lt_succ (BitVec.isLt _)⟩

/-! ### The selection by region (R104, R105) -/

section Selection

variable {region : Nat} (v p q t : Channel)

/-- R104: 5 and every region above it are the default row. -/
theorem selectRgb_of_five_le (h : 5 ≤ region) : selectRgb region v p q t = ⟨v, p, q⟩ := by
  obtain ⟨k, rfl⟩ := Nat.exists_eq_add_of_le' h
  rfl

theorem selectRgb_r (h : region = 0 ∨ region = 5) : (selectRgb region v p q t).r = v := by
  rcases h with rfl | rfl <;> rfl

theorem selectRgb_g (h : region = 1 ∨ region = 2) : (selectRgb region v p q t).g = v := by
  rcases h with rfl | rfl <;> rfl

theorem selectRgb_b (h : region = 3 ∨ region = 4) : (selectRgb region v p q t).b = v := by
  rcases h with rfl | rfl <;> rfl

/-- R109: every row of R104's table is v, p and a third value, q or t, in some order. -/
theorem selectRgb_third (region : Nat) : ∃ m, (m = q ∨ m = t) ∧
    (selectRgb region v p q t = ⟨v, m, p⟩ ∨ selectRgb region v p q t = ⟨m, v, p⟩ ∨
     selectRgb region v p q t = ⟨p, v, m⟩ ∨ selectRgb region v p q t = ⟨p, m, v⟩ ∨
     selectRgb region v p q t = ⟨m, p, v⟩ ∨ selectRgb region v p q t = ⟨v, p, m⟩) := by
  unfold selectRgb
  split
  · exact ⟨t, .inr rfl, .inl rfl⟩
  · exact ⟨q, .inl rfl, .inr (.inl rfl)⟩
  · exact ⟨t, .inr rfl, .inr (.inr (.inl rfl))⟩
  · exact ⟨q, .inl rfl, .inr (.inr (.inr (.inl rfl)))⟩
  · exact ⟨t, .inr rfl, .inr (.inr (.inr (.inr (.inl rfl))))⟩
  · exact ⟨q, .inl rfl, .inr (.inr (.inr (.inr (.inr rfl))))⟩

/-- R28 with R104: the number in RES, region by region, from the numbers p, q and t hold. -/
theorem toNat_resOf_selectRgb {p q t : Channel} {np nq nt : Nat} (hp : p.toNat = np) (hq : q.toNat = nq)
    (ht : t.toNat = nt) (region : Nat) :
    (region = 0 → (resOf (selectRgb region v p q t)).toNat = v.toNat + 32 * nt + 1024 * np) ∧
    (region = 1 → (resOf (selectRgb region v p q t)).toNat = nq + 32 * v.toNat + 1024 * np) ∧
    (region = 2 → (resOf (selectRgb region v p q t)).toNat = np + 32 * v.toNat + 1024 * nt) ∧
    (region = 3 → (resOf (selectRgb region v p q t)).toNat = np + 32 * nq + 1024 * v.toNat) ∧
    (region = 4 → (resOf (selectRgb region v p q t)).toNat = nt + 32 * np + 1024 * v.toNat) ∧
    (region = 5 → (resOf (selectRgb region v p q t)).toNat = v.toNat + 32 * np + 1024 * nq) := by
  subst hp hq ht
  refine ⟨?_, ?_, ?_, ?_, ?_, ?_⟩ <;> rintro rfl <;> exact toNat_resOf _

end Selection

theorem convert_zero_saturation (c : Config) (h v : Channel) : convert c h 0 v = ⟨v, v, v⟩ := if_pos rfl

theorem convert_of_ne_zero (c : Config) (h : Channel) {s : Channel} (v : Channel) (hs : s ≠ 0) :
    convert c h s v = selectRgb (regionOf c h) v (BitVec.ofNat 5 (interP s.toNat v.toNat))
      (BitVec.ofNat 5 (interQ s.toNat v.toNat (offsetOf c h)))
      (BitVec.ofNat 5 (interT s.toNat v.toNat (offsetOf c h))) := if_neg hs

/-- Settles O9: the test of R105 comes first; without it p would be `v*31/32`, which is less than v. -/
theorem zeroSaturationIsAchromatic : Obligations.ZeroSaturationIsAchromatic := by
  refine ⟨convert_zero_saturation, fun v hv => ⟨rfl, ?_⟩⟩
  unfold interP
  omega

/-- Settles O10: the rows are R104's; a hue is at most 31, so its region is at most 31 div 6 = 5. -/
theorem regionSelectsTheChannels : Obligations.RegionSelectsTheChannels := by
  refine ⟨fun h => ?_, fun c h s v => convert_of_ne_zero c h v,
    fun v p q t => ⟨rfl, rfl, rfl, rfl, rfl, fun _ => selectRgb_of_five_le v p q t⟩⟩
  rw [regionOf_hsvfill]
  omega

/-! ### The converter's laws (R109) -/

/-- R109: with s not 0 the channels are v, p and a third value that holds q or t, in some order. -/
theorem convert_third (c : Config) (h : Channel) {s : Channel} (v : Channel) (hs : s ≠ 0) :
    ∃ p m : Channel, p.toNat = interP s.toNat v.toNat ∧
      (m.toNat = interQ s.toNat v.toNat (offsetOf c h) ∨ m.toNat = interT s.toNat v.toNat (offsetOf c h)) ∧
      (convert c h s v = ⟨v, m, p⟩ ∨ convert c h s v = ⟨m, v, p⟩ ∨ convert c h s v = ⟨p, v, m⟩ ∨
       convert c h s v = ⟨p, m, v⟩ ∨ convert c h s v = ⟨m, p, v⟩ ∨ convert c h s v = ⟨v, p, m⟩) := by
  rw [convert_of_ne_zero c h v hs]
  obtain ⟨m, hm, hsel⟩ := selectRgb_third v _ _ _ _
  refine ⟨_, m, toNat_ofNat_interP s.toNat v, ?_, hsel⟩
  rcases hm with rfl | rfl
  · exact .inl (toNat_ofNat_interQ _ v _)
  · exact .inr (toNat_ofNat_interT _ v _)

/-- R109: no channel of the answer is above v, for any tables. -/
theorem convert_le (c : Config) (h s v : Channel) :
    (convert c h s v).r.toNat ≤ v.toNat ∧ (convert c h s v).g.toNat ≤ v.toNat ∧ (convert c h s v).b.toNat ≤ v.toNat := by
  by_cases hs : s = 0
  · rw [hs, convert_zero_saturation]
    exact ⟨le_rfl, le_rfl, le_rfl⟩
  · obtain ⟨p, m, hp, hm, hchannels⟩ := convert_third c h v hs
    have hple : p.toNat ≤ v.toNat := hp.trans_le (interP_le _ _)
    have hmle : m.toNat ≤ v.toNat :=
      hm.elim (fun hq => hq.trans_le (interQ_le _ _ _)) (fun ht => ht.trans_le (interT_le _ _ _))
    rcases hchannels with e | e | e | e | e | e <;> simp only [e, hple, hmle, le_refl, and_self]

/-- R109: with v = 0 every channel is at most 0. -/
theorem convert_zero_value (c : Config) (h s : Channel) : convert c h s 0 = ⟨0, 0, 0⟩ := by
  have hzero : ∀ {x : Channel}, x.toNat ≤ (0 : Channel).toNat → x = 0 :=
    fun hx => BitVec.eq_of_toNat_eq (Nat.le_zero.mp hx)
  obtain ⟨hr, hg, hb⟩ := convert_le c h s 0
  calc convert c h s 0
      = ⟨(convert c h s 0).r, (convert c h s 0).g, (convert c h s 0).b⟩ := rfl
    _ = ⟨0, 0, 0⟩ := by rw [hzero hr, hzero hg, hzero hb]

/-- Settles O11: v, p and a third value are the channels of every row, and none of them is above v. -/
theorem converterLaws : Obligations.ConverterLaws := by
  refine ⟨convert_zero_saturation hsvfill, convert_zero_value hsvfill, fun h s v hs => ?_, rfl, fun h => ?_⟩
  · have hs0 : s ≠ 0 := by rintro rfl; exact absurd hs (by decide)
    have hconv := convert_of_ne_zero hsvfill h v hs0
    exact ⟨fun hr => hconv ▸ selectRgb_r _ _ _ _ hr, fun hr => hconv ▸ selectRgb_g _ _ _ _ hr,
      fun hr => hconv ▸ selectRgb_b _ _ _ _ hr, convert_le hsvfill h s v⟩
  · obtain ⟨p, m, hp, hm, hchannels⟩ := convert_third hsvfill h 31 (s := 31) (by decide)
    obtain rfl : p = 0 := BitVec.eq_of_toNat_eq hp
    have hle : m.toNat ≤ 30 :=
      hm.elim (fun hq => hq.trans_le (interQ_le_thirty _ 31 _)) (fun ht => ht.trans_le (interT_le_thirty _ 31 _))
    exact ⟨m, hle, hm, hchannels⟩

/-! ### What the commands that store nothing leave unchanged (R107, R121, R140, R148) -/

section Frame

variable {s t : State} {i : Instr}

theorem exec_next (i : Instr) (s : State) : ∃ t, exec i s = .next t := by
  cases i <;> exact ⟨_, rfl⟩

theorem exec_samePorts (h : exec i s = .next t) : s.SamePorts t := by
  cases i <;> cases h <;> exact ⟨rfl, rfl, rfl⟩

theorem exec_sameBytes (h : exec i s = .next t) (hfill : i ≠ .fill) (hrepl : i ≠ .repl) : s.SameBytes t := by
  obtain ⟨hi, -⟩ | ⟨hi, -⟩ | ⟨hfb, hdraw⟩ := exec_fb_cases h
  · exact absurd hi hfill
  · exact absurd hi hrepl
  · exact sameBytes_of_fb hfb hdraw

/-- R33: only VWAIT and FRAME write PHASE. -/
theorem exec_phase (h : exec i s = .next t) (hvwait : i ≠ .vwait) (hframe : ∀ k, i ≠ .frame k) :
    t.phase = s.phase := by
  cases i with
  | vwait => exact absurd rfl hvwait
  | frame k => exact absurd rfl (hframe k)
  | _ => cases h; rfl

end Frame

/-- Settles O27: FILL and REPL alone write bytes, and each register has its own writers. -/
theorem registerCommandsStoreNothing : Obligations.RegisterCommandsStoreNothing := by
  intro i s hfill hrepl
  obtain ⟨t, h⟩ := exec_next i s
  exact ⟨t, h, exec_sameBytes h hfill hrepl, exec_sameErrors h, exec_samePorts h, exec_res h,
    fun hkeys hframe => exec_sameSatVal h fun k => ⟨hkeys k, hframe k⟩, exec_phase h⟩

/-! ### CONV (R107) -/

/-- R101, R102 and R104 on the naturals: region `h div 6` selects from v and the values of offset `6*(h mod 6)`. -/
theorem convert_hsvfill (h : Channel) {s : Channel} (v : Channel) (hs : s ≠ 0) :
    convert hsvfill h s v = selectRgb (h.toNat / 6) v (BitVec.ofNat 5 (interP s.toNat v.toNat))
      (BitVec.ofNat 5 (interQ s.toNat v.toNat (6 * (h.toNat % 6))))
      (BitVec.ofNat 5 (interT s.toNat v.toNat (6 * (h.toNat % 6)))) := by
  rw [convert_of_ne_zero hsvfill h v hs, regionOf_hsvfill, offsetOf_hsvfill]

/-- Settles O12: the triple in RES is the selection's, whose values are held without loss; the rest is the frame. -/
theorem convLatchesTheConvertedTriple : Obligations.ConvLatchesTheConvertedTriple := by
  intro h sv v s
  have hexec : exec (.conv h sv v) s = .next { s with res := resOf (convert hsvfill h sv v) } := rfl
  refine ⟨_, hexec, ?_, ?_, exec_phase hexec nofun nofun, exec_sameSatVal hexec fun k => ⟨nofun, nofun⟩,
    exec_sameErrors hexec, exec_sameBytes hexec nofun nofun, exec_samePorts hexec⟩
  · rintro rfl
    rw [convert_zero_saturation, toNat_resOf]
  · rintro hs _ _ _ _ rfl rfl rfl rfl
    rw [convert_hsvfill h v hs]
    exact toNat_resOf_selectRgb v (toNat_ofNat_interP _ v) (toNat_ofNat_interQ _ v _) (toNat_ofNat_interT _ v _) _

end Sys2Proof.Machine

/-! PROOFS. The interaction state (R121 to R126): the bounded steps of a channel, the branch an update selects, runs of one
KEYS word, and the obligations on them. -/

namespace Sys2Proof.Machine

/-! ### One bounded step of a channel (R122, R124) -/

section Bump

variable (x : Channel)

theorem toNat_bumpUp : (bumpUp x).toNat = if x.toNat < 31 then x.toNat + 1 else x.toNat := by
  unfold bumpUp
  split <;> bv_omega

theorem toNat_bumpDown : (bumpDown x).toNat = if 0 < x.toNat then x.toNat - 1 else x.toNat := by
  unfold bumpDown
  split <;> bv_omega

theorem bumpUp_max : bumpUp 31 = 31 := rfl

theorem bumpDown_zero : bumpDown 0 = 0 := rfl

/-- R126: steps up add up until they reach 31. -/
theorem toNat_iterate_bumpUp (n : Nat) : (bumpUp^[n] x).toNat = x.toNat + min n (31 - x.toNat) := by
  induction n generalizing x with
  | zero => simp
  | succ n ih =>
    rw [Function.iterate_succ_apply, ih, toNat_bumpUp]
    split <;> omega

/-- Neither bounded step moves a channel by more than 1. -/
theorem bump_moves_at_most_one {y : Channel} (h : y = x ∨ y = bumpUp x ∨ y = bumpDown x) :
    y.toNat = x.toNat ∨ y.toNat = x.toNat + 1 ∨ y.toNat + 1 = x.toNat := by
  rcases h with rfl | rfl | rfl
  · exact .inl rfl
  · rw [toNat_bumpUp]
    split <;> omega
  · rw [toNat_bumpDown]
    split <;> omega

end Bump

/-! ### The branch an update selects (R122, R123) -/

section Update

variable (sat val : Channel) {k : Keys}

theorem update_of_up (hup : k.up = true) : update sat val k = (bumpUp sat, val) := if_pos hup

theorem update_of_down (hup : k.up = false) (hdown : k.down = true) : update sat val k = (bumpDown sat, val) := by
  simp [update, hup, hdown]

theorem update_of_left (hup : k.up = false) (hdown : k.down = false) (hleft : k.left = true) :
    update sat val k = (sat, bumpDown val) := by
  simp [update, hup, hdown, hleft]

theorem update_of_right (hup : k.up = false) (hdown : k.down = false) (hleft : k.left = false) (hright : k.right = true) :
    update sat val k = (sat, bumpUp val) := by
  simp [update, hup, hdown, hleft, hright]

/-- R123: SAT follows `up`, else `down`. -/
theorem update_fst : (update sat val k).1 = if k.up then bumpUp sat else if k.down then bumpDown sat else sat := by
  unfold update
  split_ifs <;> rfl

/-- R123: VAL follows `left`, else `right`, and neither while `up` or `down` is held. -/
theorem update_snd : (update sat val k).2 =
    if k.up = false ∧ k.down = false then
      if k.left then bumpDown val else if k.right then bumpUp val else val
    else val := by
  cases hup : k.up with
  | true => rw [update_of_up sat val hup]; rfl
  | false =>
    cases hdown : k.down with
    | true => rw [update_of_down sat val hup hdown]; rfl
    | false =>
      rw [if_pos ⟨rfl, rfl⟩]
      simp only [update, hup, hdown, Bool.false_eq_true, if_false]
      split_ifs <;> rfl

/-- R125: an update leaves one channel alone and moves the other by at most one bounded step. -/
theorem update_moves_one_channel (k : Keys) :
    (∃ y, (y = sat ∨ y = bumpUp sat ∨ y = bumpDown sat) ∧ update sat val k = (y, val)) ∨
    (∃ y, (y = val ∨ y = bumpUp val ∨ y = bumpDown val) ∧ update sat val k = (sat, y)) := by
  unfold update
  split_ifs
  · exact .inl ⟨_, .inr (.inl rfl), rfl⟩
  · exact .inl ⟨_, .inr (.inr rfl), rfl⟩
  · exact .inr ⟨_, .inr (.inr rfl), rfl⟩
  · exact .inr ⟨_, .inr (.inl rfl), rfl⟩
  · exact .inr ⟨_, .inl rfl, rfl⟩

end Update

/-- Settles O13: `update` has SAT follow `up` and `down`, VAL `left` and `right`, each by a bounded step; the rest is
KEYS's frame. -/
theorem keysUpdatesTheInteractionState : Obligations.KeysUpdatesTheInteractionState := by
  intro k s
  have hexec : exec (.keys k) s = .next (s.applyKeys k) := rfl
  refine ⟨_, hexec, ?_, ?_, exec_phase hexec nofun nofun, exec_res hexec nofun, exec_sameErrors hexec,
    exec_sameBytes hexec nofun nofun, exec_samePorts hexec⟩
  · simp only [applyKeys_sat, update_fst, apply_ite BitVec.toNat, toNat_bumpUp, toNat_bumpDown]
  · simp only [applyKeys_val, update_snd, apply_ite BitVec.toNat, toNat_bumpUp, toNat_bumpDown]

/-- Settles O14: at a bound the selected branch's step is blocked, so the pair is a fixed point of the update. -/
theorem updateSaturatesAtTheBounds : Obligations.UpdateSaturatesAtTheBounds := by
  intro sat val k n
  refine ⟨fun hup => ?_, fun hup hdown => ?_, fun hup hdown hleft => ?_, fun hup hdown hleft hright => ?_,
    Nat.le_of_lt_succ (BitVec.isLt _), Nat.le_of_lt_succ (BitVec.isLt _)⟩ <;> apply Function.iterate_fixed
  · exact (update_of_up 31 val hup).trans (congrArg (·, val) bumpUp_max)
  · exact (update_of_down 0 val hup hdown).trans (congrArg (·, val) bumpDown_zero)
  · exact (update_of_left sat 0 hup hdown hleft).trans (congrArg (sat, ·) bumpDown_zero)
  · exact (update_of_right sat 31 hup hdown hleft hright).trans (congrArg (sat, ·) bumpUp_max)

/-- Settles O15: an update is one bounded step of one channel, and a bounded step moves by at most 1. -/
theorem updateMovesAtMostOneUnit : Obligations.UpdateMovesAtMostOneUnit := by
  intro sat val k
  obtain ⟨y, hy, hupdate⟩ | ⟨y, hy, hupdate⟩ := update_moves_one_channel sat val k <;> rw [hupdate]
  · exact ⟨.inr rfl, bump_moves_at_most_one sat hy, .inl rfl⟩
  · exact ⟨.inl rfl, .inl rfl, bump_moves_at_most_one val hy⟩

/-! ### Runs of one KEYS word (R126) -/

section Holding

variable {s : State} (k : Keys)

theorem edge_of_no_inputs (hi : s.inputs = []) : s.edge = EdgeInput.quiet := by rw [State.edge, hi]; rfl

theorem latch_of_no_inputs (hi : s.inputs = []) : s.latch = s := by
  have hoffers : s.offers ++ s.edge.offer.toList = s.offers := by rw [edge_of_no_inputs hi]; exact List.append_nil _
  have hinputs : s.inputs.tail = s.inputs := by rw [hi]; rfl
  rw [State.latch, hoffers, hinputs]

/-- An idle block to which nothing more arrives accepts an offered KEYS word, and only the update follows. -/
theorem step_of_keys_word (hp : s.phase = .idle) (hi : s.inputs = []) {ws : List Word}
    (ho : s.offers = encode (.keys k) :: ws) : step s = .next (State.applyKeys { s with offers := ws } k) := by
  have hr : s.edge.rst = false := by rw [edge_of_no_inputs hi]; rfl
  have hlatch := latch_of_no_inputs hi
  rw [step_of_idle_word s _ ws hr hp (hlatch ▸ ho), hlatch]
  exact acceptWord_of_command _ _ _ (decode_encode (.keys k))

/-- Each of n offered KEYS words is one update. -/
theorem run_keys_words (n : Nat) (hp : s.phase = .idle) (hi : s.inputs = [])
    (ho : s.offers = List.replicate n (encode (.keys k))) :
    Host.Core.run Sys2Proof.core n s = .next ((State.applyKeys · k)^[n] { s with offers := [] }) := by
  induction n generalizing s with
  | zero =>
    have hs : s = { s with offers := [] } := congrArg (fun ws => { s with offers := ws }) ho
    exact congrArg Host.Outcome.next hs
  | succ n ih =>
    have hstep := step_of_keys_word k hp hi ho
    exact (run_succ s n hstep).trans (ih (s := State.applyKeys _ k) hp hi rfl)

/-- Repeated updates with `up` held are repeated steps of SAT. -/
theorem iterate_applyKeys_up (hup : k.up = true) (s : State) (n : Nat) :
    (State.applyKeys · k)^[n] s = { s with sat := bumpUp^[n] s.sat } := by
  induction n generalizing s with
  | zero => rfl
  | succ n ih =>
    have happly : s.applyKeys k = { s with sat := bumpUp s.sat } := by rw [State.applyKeys, update_of_up _ _ hup]
    rw [Function.iterate_succ_apply, happly, ih, Function.iterate_succ_apply]

end Holding

/-- Settles O16: the n words are n updates, which step SAT up n times and write nothing else. -/
theorem holdingUpRaisesSatToTheBound : Obligations.HoldingUpRaisesSatToTheBound := by
  intro n s hp hi ho
  refine ⟨_, run_keys_words _ n hp hi ho, ?_⟩
  rw [iterate_applyKeys_up _ rfl]
  exact ⟨toNat_iterate_bumpUp s.sat n, rfl, hp, rfl, rfl, ⟨rfl, rfl, rfl⟩, fun _ => rfl⟩

end Sys2Proof.Machine

/-! PROOFS. The frame render stage (R142 to R152): the spans of the hue steps, the row FILL builds, FILL and REPL as their
loops, step B of FRAME as one write of the whole framebuffer, and the obligations on them. -/

namespace Sys2Proof.Machine

/-! ### Spans and columns (R142, R149) -/

section Spans

variable {c : Config}

theorem spanStart_of_floor (h : c.spanRounding = .floor) (k : Nat) : spanStart c k = k * c.width / 32 := by
  simp [spanStart, h]

theorem spanStart_of_ceil (h : c.spanRounding = .ceil) (k : Nat) : spanStart c k = (k * c.width + 31) / 32 := by
  simp [spanStart, h]

theorem hueOfColumn_of_floor (h : c.spanRounding = .floor) (x : Nat) :
    hueOfColumn c x = (32 * (x + 1) - 1) / c.width := by
  simp [hueOfColumn, h]

theorem hueOfColumn_of_ceil (h : c.spanRounding = .ceil) (x : Nat) : hueOfColumn c x = 32 * x / c.width := by
  simp [hueOfColumn, h]

variable (c)

@[simp] theorem spanStart_zero : spanStart c 0 = 0 := by
  cases h : c.spanRounding with
  | floor => rw [spanStart_of_floor h]; omega
  | ceil => rw [spanStart_of_ceil h]; omega

@[simp] theorem spanStart_last : spanStart c 32 = c.width := by
  cases h : c.spanRounding with
  | floor => rw [spanStart_of_floor h]; omega
  | ceil => rw [spanStart_of_ceil h]; omega

/-- R142: a column's hue step is the one whose span it lies in. Multiplied out, both sides bound `32 * x` by the same
multiples of W. -/
theorem hueOfColumn_eq_iff {x : Nat} (k : Nat) (hx : x < c.width) :
    hueOfColumn c x = k ↔ spanStart c k ≤ x ∧ x < spanStart c (k + 1) := by
  have hwidth : 0 < c.width := Nat.zero_lt_of_lt hx
  have hnext : (k + 1) * c.width = k * c.width + c.width := Nat.succ_mul k c.width
  cases h : c.spanRounding with
  | floor =>
    rw [hueOfColumn_of_floor h, spanStart_of_floor h, spanStart_of_floor h, Nat.div_eq_iff hwidth, hnext]
    omega
  | ceil =>
    rw [hueOfColumn_of_ceil h, spanStart_of_ceil h, spanStart_of_ceil h, Nat.div_eq_iff hwidth, hnext]
    omega

theorem mem_span_hueOfColumn {x : Nat} (hx : x < c.width) :
    spanStart c (hueOfColumn c x) ≤ x ∧ x < spanStart c (hueOfColumn c x + 1) :=
  (hueOfColumn_eq_iff c _ hx).mp rfl

/-- A step from 32 on would start at W or later. -/
theorem hueOfColumn_lt {x : Nat} (hx : x < c.width) : hueOfColumn c x < 32 := by
  by_contra hge
  have hstart := spanStart_mono c (Nat.le_of_not_lt hge)
  have hspan := mem_span_hueOfColumn c hx
  rw [spanStart_last] at hstart
  omega

/-- R149: every span is at least `floor(W/32)` wide. -/
theorem width_div_le_spanWidth (k : Nat) : c.width / 32 ≤ spanWidth c k := by
  have hnext : (k + 1) * c.width = k * c.width + c.width := Nat.succ_mul k c.width
  unfold spanWidth
  cases h : c.spanRounding with
  | floor => rw [spanStart_of_floor h, spanStart_of_floor h, hnext]; omega
  | ceil => rw [spanStart_of_ceil h, spanStart_of_ceil h, hnext]; omega

theorem spanWidth_hsvfill (k : Nat) : spanWidth hsvfill k = if k % 2 = 0 then 7 else 8 := by
  rw [spanWidth, spanStart_of_floor rfl, spanStart_of_floor rfl, hsvfill_width]
  split <;> omega

/-- Intervals that each begin where the one before ends are one interval. -/
theorem flatMap_consecutive_intervals {f : Nat → Nat} (hf : Monotone f) (n : Nat) :
    (List.range n).flatMap (fun k => List.range' (f k) (f (k + 1) - f k)) = List.range' (f 0) (f n - f 0) := by
  induction n with
  | zero => simp
  | succ n ih =>
    have hlow : f 0 ≤ f n := hf n.zero_le
    have hstep : f n ≤ f (n + 1) := hf n.le_succ
    rw [List.range_succ, List.flatMap_append, ih, List.flatMap_singleton]
    have hjoin := List.range'_append_1 (s := f 0) (m := f n - f 0) (n := f (n + 1) - f n)
    rwa [show f 0 + (f n - f 0) = f n by omega, show f n - f 0 + (f (n + 1) - f n) = f (n + 1) - f 0 by omega] at hjoin

end Spans

/-! ### FILL's writes (R142, R145) -/

section FillWrites

variable (c : Config) (sat val : Channel)

/-- R149: FILL's columns are those of the row, each once and in order. -/
theorem fillWrites_columns : (fillWrites c sat val).map Prod.fst = List.range c.width := by
  have hspans := flatMap_consecutive_intervals (fun _ _ => spanStart_mono c) nhue
  simpa [fillWrites, List.map_flatMap, Function.comp_def, List.range'_eq_map_range, spanWidth, nhue] using hspans

theorem fillWrites_pixels : (fillWrites c sat val).map Prod.snd = rowPixels c sat val := by
  simp [fillWrites, rowPixels, List.map_flatMap, Function.comp_def]

/-- R142: hue step k writes the columns of its span. -/
theorem mem_fillWrites_iff (x : Nat) (p : Pixel) : (x, p) ∈ fillWrites c sat val ↔
    ∃ k, k < 32 ∧ spanStart c k ≤ x ∧ x < spanStart c (k + 1) ∧ p = pix c sat val k := by
  simp only [fillWrites, nhue, List.mem_flatMap, List.mem_map, List.mem_range, Prod.mk.injEq]
  constructor
  · rintro ⟨k, hk, j, hj, rfl, rfl⟩
    have hend := spanStart_add_width c k
    exact ⟨k, hk, by omega, by omega, rfl⟩
  · rintro ⟨k, hk, hlow, hhigh, rfl⟩
    have hend := spanStart_add_width c k
    exact ⟨k, hk, x - spanStart c k, by omega, by omega, rfl⟩

theorem rowPixels_length_eq_width : (rowPixels c sat val).length = c.width := by
  rw [rowPixels_length, spanStart_zero, spanStart_last, Nat.sub_zero]

theorem getElem?_rowPixels {x : Nat} (hx : x < c.width) :
    (rowPixels c sat val)[x]? = some (pix c sat val (hueOfColumn c x)) := by
  obtain ⟨hlow, hhigh⟩ := mem_span_hueOfColumn c hx
  have hstep := getElem?_steps c (pix c sat val) nhue _ x (hueOfColumn_lt c hx) hlow hhigh
  rwa [spanStart_zero, Nat.sub_zero] at hstep

end FillWrites

/-- R143: the inversion on the register is the subtraction on its number. -/
theorem inverted_eq_ofNat (x : Channel) : inverted x = BitVec.ofNat 5 (31 - x.toNat) := by
  unfold inverted
  bv_omega

/-- R144 for this hardware: the pixel of a column's hue step is the pixel R152 names. -/
theorem pix_hueOfColumn (sat val : Channel) (x : Nat) :
    pix hsvfill sat val (hueOfColumn hsvfill x) = columnPixel sat val x := by
  simp only [pix, inverted_eq_ofNat, hueOfColumn_of_floor (c := hsvfill) rfl]
  rfl

theorem getElem?_rowPixels_hsvfill (sat val : Channel) {x : Nat} (hx : x < 240) :
    (rowPixels hsvfill sat val)[x]? = some (columnPixel sat val x) := by
  rw [getElem?_rowPixels hsvfill sat val hx, pix_hueOfColumn]

/-! ### FILL and REPL, pixel by pixel (R145, R146, R151) -/

section Bodies

variable (s : State)

theorem exec_fill : exec .fill s = .next s.fillBody := rfl

theorem exec_repl : exec .repl s = .next s.replBody := rfl

theorem pixelAt_fillBody_rowZero {x : Nat} (hx : x < 240) : s.fillBody.pixelAt x = columnPixel s.sat s.val x := by
  obtain ⟨hlow, hhigh⟩ := mem_span_hueOfColumn hsvfill hx
  rw [pixelAt_fillBody_inside s _ x (hueOfColumn_lt hsvfill hx) hlow hhigh, pix_hueOfColumn]

/-- R151: after REPL every row shows what row 0 showed before. -/
theorem pixelAt_replBody {x y : Nat} (hx : x < 240) (hy : y < 160) :
    s.replBody.pixelAt (pixelIndex hsvfill x y) = s.pixelAt x := by
  cases y with
  | zero =>
    rw [pixelIndex, Nat.zero_mul, Nat.zero_add]
    exact pixelAt_replBody_rowZero s x hx
  | succ y => exact pixelAt_replBody_row s x y hx (Nat.lt_of_succ_lt_succ hy)

end Bodies

/-- Settles O18: `start` and `kx` are their formulas, a column's step is the one whose span it lies in, and the row is the
steps' spans laid end to end. -/
theorem columnsBelongToTheirHueSteps : Obligations.ColumnsBelongToTheirHueSteps := by
  refine ⟨fun c k h => spanStart_of_floor h k, fun c k h => ?_, fun c => ⟨spanStart_zero c, spanStart_last c⟩,
    fun c x h => hueOfColumn_of_floor h x, fun c x h => hueOfColumn_of_ceil h x, rfl,
    fun c x k _ hx => ⟨hueOfColumn_eq_iff c k hx, hueOfColumn_lt c hx⟩, fun k _ => spanWidth_hsvfill k,
    mem_fillWrites_iff, fun s => ⟨_, exec_fill s, pixelAt_fillBody_inside s⟩⟩
  rw [spanStart_of_ceil h]
  omega

/-- Settles O19: `start` rises from 0 to W, a column's hue step is its only span, and FILL's columns are these spans laid
end to end. -/
theorem spansTileTheRow : Obligations.SpansTileTheRow := by
  refine ⟨fun c hc => ⟨fun j k => spanStart_mono c, spanStart_zero c, spanStart_last c, fun x hx => ?_,
    width_div_le_spanWidth c, ?_, rowPixels_length_eq_width c⟩, fillWrites_columns hsvfill, by decide⟩
  · exact ⟨hueOfColumn c x, ⟨hueOfColumn_lt c hx, mem_span_hueOfColumn c hx⟩,
      fun j _ hlow hhigh => ((hueOfColumn_eq_iff c j hx).mpr ⟨hlow, hhigh⟩).symm⟩
  · obtain ⟨-, -, -, -, hwidth, -, -⟩ := c.legal_iff.mp hc
    omega

/-- Settles O20: the word is `toNat_packBgr`'s number, whose digits are the fields. -/
theorem packLayout : Obligations.PackLayout := by
  intro r g b
  have hnumber := toNat_packBgr r g b
  rw [hsvfill_pack]
  exact ⟨rfl, hnumber, extractLsb'_eq_of_toNat (by omega), extractLsb'_eq_of_toNat (by omega),
    extractLsb'_eq_of_toNat (by omega), getLsbD_eq_of_toNat (by rw [Bool.toNat_false]; omega)⟩

/-- Settles O21: VWAIT's meaning is this update. -/
theorem vwaitEntersTheWait : Obligations.VwaitEntersTheWait := fun _ => rfl

/-- Settles O22: a column of row 0 holds the pixel of its hue step. -/
theorem fillBuildsRowZero : Obligations.FillBuildsRowZero :=
  fun s => ⟨_, exec_fill s, fun _ => pixelAt_fillBody_rowZero s⟩

/-- Settles O23: the frame of every command, and the bytes outside the run FILL writes. -/
theorem fillWritesOnlyRowZero : Obligations.FillWritesOnlyRowZero := by
  intro s
  have h := exec_fill s
  exact ⟨_, h, exec_phase h nofun nofun, exec_sameSatVal h fun k => ⟨nofun, nofun⟩, exec_res h nofun,
    exec_sameErrors h, exec_samePorts h, byteAt_fillBody s⟩

/-- Settles O24: every row shows what row 0 showed before, row 0 itself included. -/
theorem replCopiesRowZeroToEveryRow : Obligations.ReplCopiesRowZeroToEveryRow := by
  intro s
  refine ⟨_, exec_repl s, fun x y hx hy => ?_⟩
  have hrowZero := pixelAt_replBody_rowZero s x hx
  exact ⟨(pixelAt_replBody s hx hy).trans hrowZero.symm, hrowZero⟩

/-- Settles O25: the frame of every command, and the bytes outside the run REPL writes. -/
theorem replWritesOnlyTheOtherRows : Obligations.ReplWritesOnlyTheOtherRows := by
  intro s
  have h := exec_repl s
  exact ⟨_, h, exec_phase h nofun nofun, exec_sameSatVal h fun k => ⟨nofun, nofun⟩, exec_res h nofun,
    exec_sameErrors h, exec_samePorts h, byteAt_replBody s⟩

/-- Settles O26: step A is KEYS's update with PHASE set, and FRAME's frame is that of the commands that store nothing. -/
theorem frameStepAUpdatesAndWaits : Obligations.FrameStepAUpdatesAndWaits := by
  intro k s
  have h : exec (.frame k) s = .next { s.applyKeys k with phase := .waitFrame } := rfl
  exact ⟨_, _, h, rfl, rfl, rfl, rfl, exec_res h nofun, exec_sameErrors h, exec_sameBytes h nofun nofun, exec_samePorts h⟩

/-! ### FILL and REPL as their loops (R55, R145, R146) -/

section Bursts

/-- A store keeps the cells from any address behind it on. -/
theorem filter_from_writeBytes (m : Memory) (a : Nat) (bs : List Byte) {b : Nat} (h : a + bs.length ≤ b) :
    (m.writeBytes a bs).filter (fun c => decide (b ≤ c.1)) = m.filter (fun c => decide (b ≤ c.1)) := by
  have hnested (n : Memory) : n.filter (fun c => decide (b ≤ c.1))
      = (n.filter (fun c => decide (a + bs.length ≤ c.1))).filter (fun c => decide (b ≤ c.1)) := by
    rw [List.filter_filter]
    exact List.filter_congr fun c _ => by rw [← Bool.decide_and, decide_eq_decide]; omega
  rw [hnested, filter_above_writeBytes, ← hnested]

/-- What a store leaves below its end: the cells the memory had below it, and its own. -/
theorem filter_until_writeBytes (m : Memory) (a : Nat) (bs : List Byte) :
    (m.writeBytes a bs).filter (fun c => decide (c.1 < a + bs.length))
      = m.filter (fun c => decide (c.1 < a)) ++ cellsFrom a bs := by
  have hstored : (cellsFrom a bs).filter (fun c => decide (c.1 < a + bs.length)) = cellsFrom a bs :=
    List.filter_eq_self.mpr fun c hc => decide_eq_true (mem_cellsFrom hc).2
  have hbelow : m.filter (fun c => decide (c.1 < a + bs.length) && decide (c.1 < a))
      = m.filter (fun c => decide (c.1 < a)) :=
    List.filter_congr fun c _ => by
      rw [← Bool.decide_and, decide_eq_decide]
      omega
  have habove : m.filter (fun c => decide (c.1 < a + bs.length) && decide (a + bs.length ≤ c.1)) = [] :=
    List.filter_eq_nil_iff.mpr fun c _ => by
      simp only [Bool.and_eq_true, decide_eq_true_eq]
      omega
  simp only [Memory.writeBytes, List.filter_append, List.filter_filter, hstored, hbelow, habove, List.append_nil]

theorem cellsFrom_append (a : Nat) (bs cs : List Byte) :
    cellsFrom a (bs ++ cs) = cellsFrom a bs ++ cellsFrom (a + bs.length) cs := by
  induction bs generalizing a with
  | nil => rfl
  | cons b bs ih =>
    rw [List.cons_append, cellsFrom, ih, cellsFrom, List.cons_append, List.length_cons, Nat.add_right_comm, Nat.add_assoc]

/-- A store right behind another one is one store of both, as a list, whatever the form of the memory was. -/
theorem writeBytes_writeBytes_append (m : Memory) (a : Nat) (bs cs : List Byte) :
    (m.writeBytes a bs).writeBytes (a + bs.length) cs = m.writeBytes a (bs ++ cs) := by
  have habove := filter_from_writeBytes m a bs (Nat.le_add_right (a + bs.length) cs.length)
  rw [Memory.writeBytes, filter_until_writeBytes, habove, Memory.writeBytes, cellsFrom_append, List.length_append,
    Nat.add_assoc, List.append_assoc (m.filter _)]

/-- R55: adjacent writes are one burst. -/
theorem writePixels_writePixels_append (s : State) (i : Nat) (ps qs : List Pixel) :
    (s.writePixels i ps).writePixels (i + ps.length) qs = s.writePixels i (ps ++ qs) := by
  have haddr : fbAddr hsvfill (i + ps.length) = fbAddr hsvfill i + (ps.flatMap (pixelBytes hsvfill.fbEndian)).length := by
    rw [flatMap_pixelBytes_length, fbAddr, fbAddr]
    omega
  simp only [State.writePixels, haddr, writeBytes_writeBytes_append, List.flatMap_append]

/-- One pass of FILL's inner loop body (R145), as `State.replPass` is REPL's: a pixel index and its pixel. -/
def State.fillPass (t : State) (w : Nat × Pixel) : State := t.memWrite (fbAddr hsvfill w.1) w.2

theorem fillLoop_eq (s : State) : s.fillLoop = (fillWrites hsvfill s.sat s.val).foldl State.fillPass s := rfl

/-- Writes of ascending adjacent pixels, one at a time, are one burst. There is at least one: an empty burst would put an
unsorted memory's cells in another order. -/
theorem foldl_fillPass {ws : List (Nat × Pixel)} (hne : ws ≠ []) {i : Nat}
    (hcols : ws.map Prod.fst = List.range' i ws.length) (s : State) :
    ws.foldl State.fillPass s = s.writePixels i (ws.map Prod.snd) := by
  induction ws generalizing i s with
  | nil => contradiction
  | cons w ws ih =>
    rw [List.length_cons, List.range'_succ, List.map_cons, List.cons.injEq] at hcols
    obtain ⟨rfl, hrest⟩ := hcols
    have hpass : s.fillPass w = s.writePixels w.1 [w.2] := memWrite_eq_writePixels s w.1 w.2
    rw [List.foldl_cons, hpass, List.map_cons]
    by_cases hnil : ws = []
    · rw [hnil]; rfl
    · rw [ih hnil hrest]
      exact writePixels_writePixels_append s w.1 [w.2] _

end Bursts

/-- Settles O28: FILL's columns ascend from 0 without a gap, so its writes join to the burst of its row. -/
theorem fillIsItsWriteLoop : Obligations.FillIsItsWriteLoop := by
  intro s
  have hlength := fillWrites_length s.sat s.val
  have hcols : (fillWrites hsvfill s.sat s.val).map Prod.fst
      = List.range' 0 (fillWrites hsvfill s.sat s.val).length := by
    rw [fillWrites_columns, hlength, List.range_eq_range', hsvfill_width]
  have hne : fillWrites hsvfill s.sat s.val ≠ [] := List.ne_nil_of_length_pos (by omega)
  rw [exec_fill, fillLoop_eq, foldl_fillPass hne hcols, fillWrites_pixels, State.fillBody]

section ReplLoop

/-- R146: REPL's targets are the pixels from row 1 on, each once and in order. -/
theorem replTargets_indices (c : Config) : (replTargets c).map (fun xy => pixelIndex c xy.1 xy.2)
    = List.range' c.width ((c.height - 1) * c.width) := by
  have hmono : Monotone fun j => (j + 1) * c.width :=
    fun _ _ h => Nat.mul_le_mul_right _ (Nat.add_le_add_right h 1)
  have hrows := flatMap_consecutive_intervals hmono (c.height - 1)
  have hwidth : ∀ j, (j + 1 + 1) * c.width - (j + 1) * c.width = c.width := fun j => by
    rw [Nat.succ_mul (j + 1), Nat.add_sub_cancel_left]
  have htotal : (c.height - 1 + 1) * c.width - (0 + 1) * c.width = (c.height - 1) * c.width := by
    rw [← Nat.sub_mul, Nat.add_sub_add_right, Nat.sub_zero]
  simp only [hwidth, htotal] at hrows
  simpa [replTargets, pixelIndex, List.map_flatMap, Function.comp_def, List.range'_eq_map_range] using hrows

/-- The pixels REPL copies are row 0's, once for each further row. -/
theorem replTargets_sources (c : Config) (f : Nat → Pixel) :
    (replTargets c).map (fun xy => f xy.1) = (List.replicate (c.height - 1) ((List.range c.width).map f)).flatten := by
  simp [replTargets, Function.comp_def, List.flatMap_def]

/-- A pass of REPL writes what a write of its source pixel writes. -/
theorem replPass_eq (t : State) (xy : Nat × Nat) :
    t.replPass xy = t.fillPass (pixelIndex hsvfill xy.1 xy.2, t.pixelAt xy.1) := rfl

/-- R59: while no pass writes row 0, what a pass reads there is what the loop found there. -/
theorem foldl_replPass {l : List (Nat × Nat)}
    (hl : ∀ xy ∈ l, xy.1 < 240 ∧ 240 ≤ pixelIndex hsvfill xy.1 xy.2) (t : State) :
    l.foldl State.replPass t
      = (l.map (fun xy => (pixelIndex hsvfill xy.1 xy.2, t.pixelAt xy.1))).foldl State.fillPass t := by
  induction l generalizing t with
  | nil => rfl
  | cons xy l ih =>
    obtain ⟨⟨-, htarget⟩, hrest⟩ := List.forall_mem_cons.mp hl
    have hrow : ∀ x < 240, (t.replPass xy).pixelAt x = t.pixelAt x := fun x hx =>
      pixelAt_writePixels_outside t _ [t.pixelAt xy.1] x (.inl (by omega))
    have hsame : l.map (fun z => (pixelIndex hsvfill z.1 z.2, (t.replPass xy).pixelAt z.1))
        = l.map (fun z => (pixelIndex hsvfill z.1 z.2, t.pixelAt z.1)) :=
      List.map_congr_left fun z hz => by rw [hrow z.1 (hrest z hz).1]
    rw [List.foldl_cons, ih hrest, hsame, List.map_cons, List.foldl_cons, replPass_eq]

theorem le_pixelIndex_of_mem_replTargets {xy : Nat × Nat} (h : xy ∈ replTargets hsvfill) :
    240 ≤ pixelIndex hsvfill xy.1 xy.2 := by
  have hmem := List.mem_map_of_mem (f := fun xy => pixelIndex hsvfill xy.1 xy.2) h
  rw [replTargets_indices] at hmem
  exact (List.mem_range'_1.mp hmem).1

end ReplLoop

/-- Settles O29: row 0 stays as it was, so the copies are those of the row REPL found, and their targets ascend without a
gap from row 1 on. -/
theorem replIsItsCopyLoop : Obligations.ReplIsItsCopyLoop := by
  intro s
  have hl := fun xy h => And.intro (mem_replTargets (xy := xy) h).1 (le_pixelIndex_of_mem_replTargets h)
  have hlength := replTargets_length
  rw [exec_repl, State.replLoop, foldl_replPass hl, foldl_fillPass (i := hsvfill.width), List.map_map]
  · exact congrArg (fun ps => Host.Outcome.next (s.writePixels hsvfill.width ps))
      (replTargets_sources hsvfill s.pixelAt).symm
  · exact List.ne_nil_of_length_pos (by rw [List.length_map]; omega)
  · rw [List.map_map, List.length_map, hlength]
    exact replTargets_indices hsvfill

/-! ### Step B of FRAME (R148, R152) -/

/-- The whole framebuffer as step B leaves it: FILL's row, H times. -/
def framePixels (sat val : Channel) : List Pixel :=
  (List.replicate hsvfill.height (rowPixels hsvfill sat val)).flatten

/-- R152: every pixel of column x is the one SAT and VAL give it. -/
def State.ShowsFrame (s : State) : Prop :=
  ∀ x y, x < 240 → y < 160 → s.pixelAt (pixelIndex hsvfill x y) = columnPixel s.sat s.val x

section StepB

theorem framePixels_length (sat val : Channel) : (framePixels sat val).length = 38400 := by
  rw [framePixels, flatten_replicate_length, rowPixels_hsvfill_length, hsvfill_height]

variable (s : State)

/-- After FILL, row 0 is the row FILL built. -/
theorem rowZero_fillBody : s.fillBody.rowZero = rowPixels hsvfill s.sat s.val := by
  refine List.ext_getElem (by simp) fun x hx hx' => ?_
  have hpixel := pixelAt_writePixels_inside s 0 _ x _ (List.getElem?_eq_getElem hx')
  rw [Nat.zero_add] at hpixel
  simpa [State.rowZero, State.fillBody] using hpixel

/-- Step B is one burst over the whole framebuffer, of pixels that do not depend on what it held. -/
theorem fillBody_replBody : s.fillBody.replBody = s.writePixels 0 (framePixels s.sat s.val) := by
  have hjoin := writePixels_writePixels_append s 0 (rowPixels hsvfill s.sat s.val)
    (List.replicate (hsvfill.height - 1) (rowPixels hsvfill s.sat s.val)).flatten
  rw [rowPixels_hsvfill_length, Nat.zero_add] at hjoin
  rw [State.replBody, rowZero_fillBody, State.fillBody, hsvfill_width, hjoin]
  rfl

/-- R152, for a FRAME's vblank event. -/
theorem showsFrame_vblankEvent (hp : s.phase = .waitFrame) : s.vblankEvent.ShowsFrame := by
  intro x y hx hy
  rw [vblankEvent_waitFrame s hp]
  exact (pixelAt_replBody s.fillBody hx hy).trans (pixelAt_fillBody_rowZero s hx)

/-- A store over the whole framebuffer leaves nothing of a memory inside it. -/
theorem writeBytes_of_covers {m : Memory} (hm : m.InFramebuffer) {bs : List Byte}
    (hlength : hsvfill.fbBase + bs.length = fbEnd hsvfill) :
    m.writeBytes hsvfill.fbBase bs = cellsFrom hsvfill.fbBase bs := by
  have hbelow : m.filter (fun c => decide (c.1 < hsvfill.fbBase)) = [] :=
    List.filter_eq_nil_iff.mpr fun c hc => by
      have := hm c hc
      simp only [decide_eq_true_eq]
      omega
  have habove : m.filter (fun c => decide (hsvfill.fbBase + bs.length ≤ c.1)) = [] :=
    List.filter_eq_nil_iff.mpr fun c hc => by
      have := hm c hc
      simp only [decide_eq_true_eq]
      omega
  rw [Memory.writeBytes, hbelow, habove, List.nil_append, List.append_nil]

/-- The framebuffer after step B, as a function of SAT and VAL alone. -/
def frameMemory (sat val : Channel) : Memory :=
  cellsFrom hsvfill.fbBase ((framePixels sat val).flatMap (pixelBytes hsvfill.fbEndian))

theorem frameBytes_length (sat val : Channel) :
    hsvfill.fbBase + ((framePixels sat val).flatMap (pixelBytes hsvfill.fbEndian)).length = fbEnd hsvfill := by
  rw [flatMap_pixelBytes_length, framePixels_length, fbEnd_hsvfill, hsvfill_fbBase]

theorem vblankEvent_fb_of_waitFrame (hp : s.phase = .waitFrame) (hfb : s.fb.InFramebuffer) :
    s.vblankEvent.fb = frameMemory s.sat s.val := by
  rw [vblankEvent_waitFrame s hp, fillBody_replBody]
  exact writeBytes_of_covers hfb (frameBytes_length s.sat s.val)

/-- After step B every byte of the framebuffer is listed, so none is a free value. -/
theorem exists_read?_frameMemory (sat val : Channel) {a : Nat} (hlow : hsvfill.fbBase ≤ a) (hhigh : a < fbEnd hsvfill) :
    ∃ v, (frameMemory sat val).read? a = some v := by
  have hlength := frameBytes_length sat val
  rw [frameMemory, read?_cellsFrom, if_pos hlow]
  exact ⟨_, List.getElem?_eq_getElem (by omega)⟩

end StepB

/-- Settles O56: the edge is the vblank event, which writes neither SAT nor VAL and shows their frame. -/
theorem stepBOverwritesEveryPixel : Obligations.StepBOverwritesEveryPixel := by
  intro s hp hr hv
  obtain ⟨hsat, hval⟩ := vblankEvent_sameSatVal s.latch
  have hshows := showsFrame_vblankEvent s.latch hp
  unfold State.ShowsFrame at hshows
  rw [hsat, hval] at hshows
  exact ⟨_, step_of_waiting_vblank s hr (by simp [hp]) hv, hsat, hval, hshows⟩

/-- Settles O44: both framebuffers are the frame of the same SAT and VAL, which lists every byte. -/
theorem noEarlierFrameContentSurvives : Obligations.NoEarlierFrameContentSurvives := by
  intro s s' t t' _ hfb _ hfb' hp hp' hsat hval hr hr' hv hv' h h'
  cases (step_of_waiting_vblank s hr (by simp [hp]) hv).symm.trans h
  cases (step_of_waiting_vblank s' hr' (by simp [hp']) hv').symm.trans h'
  have ht : s.latch.vblankEvent.fb = frameMemory s.sat s.val := vblankEvent_fb_of_waitFrame s.latch hp hfb
  have ht' : s'.latch.vblankEvent.fb = frameMemory s.sat s.val := by
    rw [hsat, hval]
    exact vblankEvent_fb_of_waitFrame s'.latch hp' hfb'
  refine ⟨ht.trans ht'.symm, fun a hlow hhigh => ?_⟩
  obtain ⟨v, hread⟩ := exists_read?_frameMemory s.sat s.val hlow hhigh
  rw [State.byteAt, State.byteAt, ht, ht', hread]
  rfl

end Sys2Proof.Machine

/-! PROOFS. Waiting (R140, R148, R150, R176): runs of edges without a reset and a vblank event, the vblank event that ends
them, the service loop, and the obligations on them. -/

namespace Sys2Proof.Machine

/-! ### Edges at which a waiting block stays (R140, R199) -/

section Waiting

variable {s : State} {es rest : List EdgeInput}

/-- A block with the inputs of `es` taken and `rest` to come: nothing else is different. -/
def State.taking (s : State) (es rest : List EdgeInput) : State :=
  { s with inputs := rest, offers := s.offers ++ offeredAt es }

theorem taking_taking (s : State) (es es' r r' : List EdgeInput) :
    (s.taking es r).taking es' r' = s.taking (es ++ es') r' := by
  simp [State.taking, offeredAt]

theorem edge_of_inputs {e : EdgeInput} (hi : s.inputs = e :: rest) : s.edge = e := by rw [State.edge, hi]; rfl

/-- The next edge's inputs and then those of `es` are those of both. -/
theorem latch_taking {e : EdgeInput} (hi : s.inputs = e :: (es ++ rest)) :
    s.latch.taking es rest = s.taking (e :: es) rest := by
  simp [State.taking, State.latch, edge_of_inputs hi, offeredAt]

/-- Edges without a reset and a vblank event only take a waiting block's inputs. -/
theorem run_uneventful (hp : s.phase ≠ .idle) (hi : s.inputs = es ++ rest) (hes : Uneventful es) (n : Nat) :
    Host.Core.run Sys2Proof.core (es.length + n) s = Host.Core.run Sys2Proof.core n (s.taking es rest) := by
  induction es generalizing s with
  | nil =>
    obtain rfl : s.inputs = rest := hi
    have hs : s.taking [] s.inputs = s := by simp [State.taking, offeredAt]
    rw [hs, List.length_nil, Nat.zero_add]
  | cons e es ih =>
    obtain ⟨⟨hr, hv⟩, hes⟩ := List.forall_mem_cons.mp hes
    have hedge : s.edge = e := edge_of_inputs hi
    have hstep := step_of_waiting_quiet s (hedge ▸ hr) hp (hedge ▸ hv)
    have hinputs : s.latch.inputs = es ++ rest := by rw [latch_inputs, hi]; rfl
    rw [List.length_cons, Nat.add_right_comm, run_succ s _ hstep, ih (s := s.latch) hp hinputs hes, latch_taking hi]

/-- The first vblank event after such edges is the wait's. -/
theorem run_first_vblank (hp : s.phase ≠ .idle) {e : EdgeInput} (hi : s.inputs = es ++ e :: rest) (hes : Uneventful es)
    (hr : e.rst = false) (hv : e.vblank = true) (n : Nat) :
    Host.Core.run Sys2Proof.core (es.length + (n + 1)) s
      = Host.Core.run Sys2Proof.core n (s.taking (es ++ [e]) rest).vblankEvent := by
  have hstep := step_of_waiting_vblank (s.taking es (e :: rest)) hr hp hv
  have hlatch : (s.taking es (e :: rest)).latch = s.taking (es ++ [e]) rest := by
    simp [State.taking, State.latch, State.edge, offeredAt]
  rw [run_uneventful hp hi hes, run_succ _ n hstep, hlatch]

end Waiting

/-- Settles O42: until the vblank event the block only takes its inputs, and the event of a VWAIT writes PHASE alone. -/
theorem vwaitEndsAtTheFirstVblank : Obligations.VwaitEndsAtTheFirstVblank := by
  intro s es rest e hp hi hes hr hv
  have hwaits : s.phase ≠ .idle := by simp [hp]
  refine ⟨⟨_, run_uneventful hwaits hi hes 0, hp⟩, _, run_first_vblank hwaits hi hes hr hv 0, ?_⟩
  rw [vblankEvent_wait (s.taking _ _) hp]
  exact ⟨rfl, ⟨rfl, rfl⟩, rfl, ⟨rfl, rfl, rfl⟩, fun _ => rfl, rfl, rfl⟩

/-! ### A whole FRAME (R148, R152) -/

section Frame

/-- FRAME's step A (R148): the state in which the block waits. -/
def State.frameWaiting (s : State) (k : Keys) : State := { s.applyKeys k with phase := .waitFrame }

theorem exec_frame (k : Keys) (s : State) : exec (.frame k) s = .next (s.frameWaiting k) := rfl

/-- What a FRAME has done at its vblank event: the update of its snapshot, and the frame of the new SAT and VAL. -/
structure State.FrameDone (s : State) (k : Keys) (t : State) : Prop where
  phase : t.phase = .idle
  satVal : (t.sat, t.val) = update s.sat s.val k
  res : t.res = s.res
  errors : s.SameErrors t
  shows : t.ShowsFrame

theorem frameDone_vblankEvent (s : State) (k : Keys) (es rest : List EdgeInput) :
    s.FrameDone k ((s.frameWaiting k).taking es rest).vblankEvent where
  phase := vblankEvent_phase _
  satVal := congrArg₂ Prod.mk (vblankEvent_sameSatVal _).1 (vblankEvent_sameSatVal _).2
  res := vblankEvent_res _
  errors := vblankEvent_sameErrors _
  shows := showsFrame_vblankEvent _ rfl

end Frame

/-- Settles O43: the block waits with step A's SAT and VAL, which nothing writes until the vblank event renders them. -/
theorem frameRendersItsOwnStateAtTheFirstVblank : Obligations.FrameRendersItsOwnStateAtTheFirstVblank := by
  intro s u k es rest e hu hi hes hr hv
  cases (exec_frame k s).symm.trans hu
  have hwaits : (s.frameWaiting k).phase ≠ .idle := nofun
  have hdone := frameDone_vblankEvent s k (es ++ [e]) rest
  exact ⟨⟨_, run_uneventful hwaits hi hes 0, rfl, fun _ => rfl⟩, _, run_first_vblank hwaits hi hes hr hv 0, hdone.phase,
    hdone.satVal, hdone.res, hdone.errors, vblankEvent_inputs _, hdone.shows⟩

/-! ### The service loop (R150) -/

section ServiceLoop

/-- The edges of one frame of the service loop: a FRAME offered, quiet edges, and a vblank event. -/
def frameEdges (k : Keys × Nat) : List EdgeInput :=
  { offer := some (encode (.frame k.1)) } :: (List.replicate k.2 EdgeInput.quiet ++ [{ vblank := true }])

theorem uneventful_replicate_quiet (n : Nat) : Uneventful (List.replicate n EdgeInput.quiet) := by
  intro e he
  rw [List.eq_of_mem_replicate he]
  exact ⟨rfl, rfl⟩

/-- An idle block with nothing offered yet accepts the FRAME its next edge offers. -/
theorem step_of_frame_offer {s : State} (hp : s.phase = .idle) (ho : s.offers = []) {k : Keys} {es : List EdgeInput}
    (hi : s.inputs = { offer := some (encode (.frame k)) } :: es) :
    step s = .next ((s.frameWaiting k).taking [] es) := by
  have hedge := edge_of_inputs hi
  have hoffers : s.latch.offers = [encode (.frame k)] := by rw [latch_offers, ho, hedge]; rfl
  have hlatch : { s.latch with offers := [] } = s.taking [] es := by
    rw [State.taking, ho, State.latch, hi]; rfl
  rw [step_of_idle_word s _ [] (hedge ▸ rfl) hp hoffers, hlatch, acceptWord_of_command _ _ _ (decode_encode (.frame k))]
  rfl

/-- R150: one frame of the loop, whatever run follows it. -/
theorem run_frameEdges {s : State} (hp : s.phase = .idle) (ho : s.offers = []) (k : Keys × Nat) (rest : List EdgeInput)
    (hi : s.inputs = frameEdges k ++ rest) :
    ∃ t, (∀ n, Host.Core.run Sys2Proof.core (k.2 + 2 + n) s = Host.Core.run Sys2Proof.core n t) ∧
      s.FrameDone k.1 t ∧ t.offers = [] ∧ t.inputs = rest := by
  set waiting := List.replicate k.2 EdgeInput.quiet with hwaiting
  have hedges : s.inputs = { offer := some (encode (.frame k.1)) } :: (waiting ++ { vblank := true } :: rest) := by
    rw [hi, frameEdges, List.cons_append, List.append_assoc, List.singleton_append]
  have hlength : waiting.length = k.2 := List.length_replicate
  have hstep := step_of_frame_offer hp ho hedges
  refine ⟨_, fun n => ?_, frameDone_vblankEvent s k.1 (waiting ++ [{ vblank := true }]) rest, ?_, vblankEvent_inputs _⟩
  · have hrun := run_first_vblank (s := (s.frameWaiting k.1).taking [] _) (es := waiting) (rest := rest)
      (e := { vblank := true }) nofun rfl (uneventful_replicate_quiet k.2) rfl rfl n
    rw [taking_taking, hlength] at hrun
    rw [show k.2 + 2 + n = k.2 + (n + 1) + 1 by omega, run_succ s _ hstep, hrun, List.nil_append]
  · have hoffered : offeredAt (waiting ++ [{ vblank := true }]) = [] := by
      simp [hwaiting, offeredAt, EdgeInput.quiet]
    rw [vblankEvent_offers]
    exact List.append_eq_nil_iff.mpr ⟨ho, hoffered⟩

theorem sameErrors_trans {s t u : State} (h : s.SameErrors t) (h' : t.SameErrors u) : s.SameErrors u := by
  obtain ⟨hill, hcause, herrcmd⟩ := h
  obtain ⟨hill', hcause', herrcmd'⟩ := h'
  exact ⟨hill'.trans hill, hcause'.trans hcause, herrcmd'.trans herrcmd⟩

/-- R150: frame by frame. Where no frame runs, the framebuffer shows its SAT and VAL if it did before. -/
theorem run_service_loop (ks : List (Keys × Nat)) {s : State} (hp : s.phase = .idle) (ho : s.offers = [])
    (hi : s.inputs = ks.flatMap frameEdges) :
    ∃ t, Host.Core.run Sys2Proof.core (ks.map (fun k => k.2 + 2)).sum s = .next t ∧ t.phase = .idle ∧
      (t.sat, t.val) = ks.foldl (fun x k => update x.1 x.2 k.1) (s.sat, s.val) ∧ t.res = s.res ∧ s.SameErrors t ∧
      (ks ≠ [] ∨ s.ShowsFrame → t.ShowsFrame) := by
  induction ks generalizing s with
  | nil => exact ⟨s, rfl, hp, rfl, rfl, ⟨rfl, rfl, rfl⟩, fun h => h.resolve_left (fun hne => hne rfl)⟩
  | cons k ks ih =>
    obtain ⟨u, hrun, hdone, huo, hui⟩ := run_frameEdges hp ho k (ks.flatMap frameEdges) hi
    obtain ⟨t, hruns, htp, hsatVal, hres, herrors, hshows⟩ := ih hdone.phase huo hui
    refine ⟨t, (hrun _).trans hruns, htp, ?_, hres.trans hdone.res, sameErrors_trans hdone.errors herrors,
      fun _ => hshows (.inr hdone.shows)⟩
    rw [hsatVal, hdone.satVal, List.foldl_cons]

end ServiceLoop

/-- Settles O45: the loop's edges are its frames' edges, and the last frame's pixels stand. -/
theorem boundedFramesRunTheServiceLoop : Obligations.BoundedFramesRunTheServiceLoop := by
  intro ks s hp ho hi
  obtain ⟨t, hrun, htp, hsatVal, hres, herrors, hshows⟩ := run_service_loop ks hp ho hi
  exact ⟨t, hrun, htp, hsatVal, hres, herrors, fun hne => hshows (.inl hne)⟩

end Sys2Proof.Machine

/-! PROOFS. Exceptions (R170 to R178): the record of an illegal word, the error that sticks, runs that go on for ever, the
stuck wait, and the obligations on them. -/

namespace Sys2Proof.Machine

/-! ### Recording an illegal word (R171, R173) -/

/-- Settles O34: the accepted word goes to `raiseIllegal`, which writes the error record alone, and only while ILL = 0. -/
theorem stepRecordsTheFirstIllegalWord : Obligations.StepRecordsTheFirstIllegalWord := by
  intro s w ws c hr hp ho hd
  set u : State := { s.latch with offers := ws }
  have hstep : step s = .next (u.raiseIllegal c w) :=
    (step_of_idle_word s w ws hr hp ho).trans (acceptWord_of_illegal u w c hd)
  have hphase : (u.raiseIllegal c w).phase = .idle := (raiseIllegal_phase u c w).trans hp
  refine ⟨_, hstep, raiseIllegal_ill u c w, fun hill => ?_, fun hill => ?_, hphase,
    ⟨raiseIllegal_sat u c w, raiseIllegal_val u c w⟩, raiseIllegal_res u c w,
    sameBytes_of_fb (raiseIllegal_fb u c w) (raiseIllegal_fbDraw u c w), raiseIllegal_offers u c w,
    raiseIllegal_inputs u c w, ?_⟩
  · rw [raiseIllegal_of_not_ill u c w hill]
    exact ⟨rfl, rfl⟩
  · rw [raiseIllegal_of_ill u c w hill]
    exact ⟨rfl, rfl⟩
  · rw [State.cmdReady, hphase]
    rfl

/-! ### Runs go on (R172) -/

theorem step_next (s : State) : ∃ t, step s = .next t := by
  obtain ⟨-, hs⟩ | ⟨-, -, -, hs⟩ | ⟨w, ws, i, -, -, -, -, hs⟩ | ⟨w, ws, c, -, -, -, -, hs⟩ | ⟨-, -, -, hs⟩ |
    ⟨-, -, -, hs⟩ := step_cases s
  case inr.inr.inl =>
    obtain ⟨t, ht⟩ := exec_next i { s.latch with offers := ws }
    exact ⟨t, hs.trans ht⟩
  all_goals exact ⟨_, hs⟩

/-- Settles O36: every step answers a next state, so a run never stops. -/
theorem everyRunGoesOn : Obligations.EveryRunGoesOn := by
  intro n
  induction n with
  | zero => exact fun s => ⟨s, run_zero s⟩
  | succ n ih =>
    intro s
    obtain ⟨u, hu⟩ := step_next s
    obtain ⟨t, ht⟩ := ih u
    exact ⟨t, (run_succ s n hu).trans ht⟩

/-! ### What is true of every edge to come -/

section EdgesToCome

variable {s t : State} {p : EdgeInput → Prop}

/-- When the list has run out the edge is a quiet one (log 2). -/
theorem forall_inputs_edge (hquiet : p EdgeInput.quiet) (hs : ∀ e ∈ s.inputs, p e) : p s.edge := by
  cases hi : s.inputs with
  | nil => rwa [edge_of_no_inputs hi]
  | cons e es => exact edge_of_inputs hi ▸ hs e (hi ▸ List.mem_cons_self)

theorem forall_inputs_latch (hs : ∀ e ∈ s.inputs, p e) : ∀ e ∈ s.latch.inputs, p e :=
  fun e he => hs e (List.mem_of_mem_tail he)

theorem step_inputs (h : step s = .next t) : t.inputs = s.latch.inputs := by
  cases edgeResult_of_step h with
  | reset => exact resetEdge_inputs _
  | nothingOffered => rfl
  | command w ws i _ _ _ _ _ he =>
    obtain ⟨-, hinputs, -⟩ := exec_samePorts he
    exact hinputs
  | illegal w ws c => exact raiseIllegal_inputs _ c w
  | vblank => exact vblankEvent_inputs _
  | quiet => rfl

end EdgesToCome

/-! ### The first error sticks (R174, R194) -/

section FirstError

variable {s t : State}

/-- No reset is to come. -/
def State.NoResetToCome (s : State) : Prop := ∀ e ∈ s.inputs, e.rst = false

theorem noResetToCome_of_step (h : step s = .next t) (hs : s.NoResetToCome) : t.NoResetToCome := by
  rw [State.NoResetToCome, step_inputs h]
  exact forall_inputs_latch hs

/-- R174: of an edge's cases a reset is excluded, and an illegal word finds ILL = 1. -/
theorem sameErrors_of_step (h : step s = .next t) (hill : s.Faulted) (hr : s.edge.rst = false) : s.SameErrors t := by
  cases edgeResult_of_step h with
  | reset hr' => simp [hr] at hr'
  | nothingOffered => exact ⟨rfl, rfl, rfl⟩
  | command w ws i _ _ _ _ _ he =>
    have hsame := exec_sameErrors he
    exact hsame
  | illegal w ws c =>
    rw [raiseIllegal_of_ill { s.latch with offers := ws } c w hill]
    exact ⟨rfl, rfl, rfl⟩
  | vblank => exact vblankEvent_sameErrors s.latch
  | quiet => exact ⟨rfl, rfl, rfl⟩

theorem faulted_of_sameErrors (h : s.SameErrors t) (hill : s.Faulted) : t.Faulted := by
  obtain ⟨hsame, -, -⟩ := h
  exact hsame.trans hill

theorem not_final_of_faulted (h : s.Faulted) : ¬ s.Final := by
  rintro ⟨-, -, hill⟩
  exact Bool.false_ne_true (hill.symm.trans h)

end FirstError

/-- Settles O35: along a run the record is the first state's and no reset is to come. -/
theorem theFirstErrorSticks : Obligations.TheFirstErrorSticks := by
  intro n s t hill hinputs hrun
  have hstep (u v : State) : s.SameErrors u ∧ u.NoResetToCome → step u = .next v →
      s.SameErrors v ∧ v.NoResetToCome := by
    rintro ⟨hsame, hnone⟩ huv
    have hr : u.edge.rst = false := forall_inputs_edge (p := fun e => e.rst = false) rfl hnone
    have hsame' := sameErrors_of_step huv (faulted_of_sameErrors hsame hill) hr
    exact ⟨sameErrors_trans hsame hsame', noResetToCome_of_step huv hnone⟩
  obtain ⟨hsame, -⟩ := run_induction hstep n s t ⟨⟨rfl, rfl, rfl⟩, hinputs⟩ hrun
  have hfaulted := faulted_of_sameErrors hsame hill
  exact ⟨hsame, hfaulted, not_final_of_faulted hfaulted⟩

/-! ### The stuck wait (R178) -/

section StuckWait

variable {s : State}

theorem taking_nil (s : State) : s.taking [] s.inputs = s := by simp [State.taking, offeredAt]

theorem latch_eq_taking (s : State) : s.latch = s.taking [s.edge] s.inputs.tail := by
  simp [State.latch, State.taking, offeredAt]

theorem step_of_stuck (h : s.Stuck) : step s = .next s.latch := by
  obtain ⟨hp, hedges⟩ := h
  obtain ⟨hv, hr⟩ := forall_inputs_edge (p := fun e => e.vblank = false ∧ e.rst = false) ⟨rfl, rfl⟩ hedges
  exact step_of_waiting_quiet s hr hp hv

theorem stuck_latch (h : s.Stuck) : s.latch.Stuck := by
  obtain ⟨hp, hedges⟩ := h
  exact ⟨hp, forall_inputs_latch hedges⟩

/-- A stuck block only takes its inputs, and it stays stuck. -/
theorem run_of_stuck (n : Nat) (h : s.Stuck) :
    ∃ es rest, Host.Core.run Sys2Proof.core n s = .next (s.taking es rest) ∧ (s.taking es rest).Stuck := by
  induction n generalizing s with
  | zero => exact ⟨[], s.inputs, by rw [taking_nil, run_zero], (taking_nil s).symm ▸ h⟩
  | succ n ih =>
    obtain ⟨es, rest, hrun, hstuck⟩ := ih (stuck_latch h)
    rw [latch_eq_taking, taking_taking] at hrun hstuck
    exact ⟨_, _, (run_succ s n (step_of_stuck h)).trans (latch_eq_taking s ▸ hrun), hstuck⟩

theorem not_final_of_stuck (h : s.Stuck) : ¬ s.Final := by
  obtain ⟨hwaits, -⟩ := h
  exact fun ⟨hidle, _⟩ => hwaits hidle

end StuckWait

/-- Settles O46: taking inputs writes no register and no byte. -/
theorem aStuckBlockStaysStuck : Obligations.AStuckBlockStaysStuck := by
  intro n s h
  obtain ⟨es, rest, hrun, hstuck⟩ := run_of_stuck n h
  exact ⟨_, hrun, hstuck, not_final_of_stuck hstuck, rfl, ⟨rfl, rfl⟩, rfl, ⟨rfl, rfl, rfl⟩, fun _ => rfl⟩

end Sys2Proof.Machine

/-! PROOFS. Reset and hazards (R190, R194, R196): the reset edge, the final state that stays final, what a read during an
operation may return, and the obligations on them. -/

namespace Sys2Proof.Machine

/-! ### The framebuffer accesses of an edge (R51, R60, R190) -/

section EdgeAccesses

variable {s t : State}

theorem edgeAccesses_of_rst (hr : s.edge.rst = true) : s.edgeAccesses = [] := if_pos hr

/-- R148: the vblank event of a waiting FRAME accesses the framebuffer for step B. -/
theorem edgeAccesses_of_frame_vblank (hr : s.edge.rst = false) (hp : s.phase = .waitFrame) (hv : s.edge.vblank = true) :
    s.edgeAccesses = s.frameAccesses := by
  simp [State.edgeAccesses, hr, hp, hv]

/-- R22: a command is accepted by an idle block at an edge without a reset, and its word is the oldest offered. -/
theorem offered_of_acceptedCommand {i : Instr} (h : s.acceptedCommand = some i) :
    s.edge.rst = false ∧ s.phase = .idle ∧ ∃ w ws, s.latch.offers = w :: ws ∧ decode w = .command i := by
  obtain ⟨w, hw, hi⟩ := Option.bind_eq_some_iff.mp h
  obtain ⟨hready, hhead⟩ := Option.ite_none_right_eq_some.mp hw
  obtain ⟨hp, hr⟩ := cmdReadyPort_iff.mp hready
  obtain ⟨ws, ho⟩ := List.head?_eq_some_iff.mp hhead
  refine ⟨hr, hp, w, ws, ho, ?_⟩
  cases hd : decode w with
  | command j =>
    rw [hd] at hi
    exact congrArg Decoded.command (Option.some.inj hi)
  | illegal c =>
    rw [hd] at hi
    cases hi

theorem edgeAccesses_of_acceptedCommand {i : Instr} (h : s.acceptedCommand = some i) :
    s.edgeAccesses = s.commandAccesses i := by
  obtain ⟨hr, hp, w, ws, ho, hd⟩ := offered_of_acceptedCommand h
  simp only [State.edgeAccesses, hr, hp, ho, hd, Bool.false_eq_true, if_false]

theorem fillAccesses_ne_nil (s : State) : s.fillAccesses ≠ [] :=
  List.ne_nil_of_length_eq_add_one (fillAccesses_length s)

theorem replAccesses_ne_nil (s : State) : s.replAccesses ≠ [] := by
  intro h
  obtain ⟨hwrites, -⟩ := replAccesses_count s
  rw [h, replTargets_length] at hwrites
  cases hwrites

theorem frameAccesses_ne_nil (s : State) : s.frameAccesses ≠ [] :=
  List.append_ne_nil_of_left_ne_nil (fillAccesses_ne_nil s) _

/-- R51: each of the framebuffer's writers makes an access at its edge. -/
theorem sameBytes_of_no_access (h : step s = .next t) (hr : s.edge.rst = false) (ha : s.edgeAccesses = []) :
    s.SameBytes t := by
  by_contra hdiff
  obtain hfill | hrepl | ⟨hp, hv⟩ := onlyRenderingWritesTheFramebuffer s t h hr hdiff
  · exact fillAccesses_ne_nil s ((edgeAccesses_of_acceptedCommand hfill).symm.trans ha)
  · exact replAccesses_ne_nil s ((edgeAccesses_of_acceptedCommand hrepl).symm.trans ha)
  · exact frameAccesses_ne_nil s ((edgeAccesses_of_frame_vblank hr hp hv).symm.trans ha)

end EdgeAccesses

/-! ### The reset edge (R190) -/

/-- Settles O38: the edge is not ready, and it answers `resetEdge`, an idle block whose registers are all 0. -/
theorem resetEdgeRestoresTheRegisters : Obligations.ResetEdgeRestoresTheRegisters := by
  intro s hr
  have hready := cmdReadyPort_of_rst hr
  exact ⟨hready, acceptedWord_of_not_ready hready, edgeAccesses_of_rst hr, _, step_of_rst s hr, rfl, rfl, rfl, rfl, rfl,
    rfl, rfl, rdData_eq_zero _ rfl rfl rfl rfl rfl rfl rfl, rfl, rfl⟩

/-! ### The final state (R194) -/

section Final

variable {s : State}

theorem latch_offers_of_noMoreCommands (h : s.NoMoreCommands) : s.latch.offers = [] := by
  obtain ⟨hoffers, hnone⟩ := h
  have hedge : s.edge.offer = none := forall_inputs_edge (p := fun e => e.offer = none) rfl hnone
  rw [latch_offers, hoffers, hedge]
  rfl

/-- A final block accepts nothing, and its vblank events change nothing (R176). -/
theorem step_of_final (h : s.Final) (hnone : s.NoResetToCome) : step s = .next s.latch := by
  obtain ⟨hidle, hnomore, -⟩ := h
  have hr : s.edge.rst = false := forall_inputs_edge (p := fun e => e.rst = false) rfl hnone
  exact step_of_idle_empty s hr hidle (latch_offers_of_noMoreCommands hnomore)

theorem final_latch (h : s.Final) : s.latch.Final := by
  obtain ⟨hidle, hnomore, hill⟩ := h
  have hoffers := latch_offers_of_noMoreCommands hnomore
  obtain ⟨-, hnone⟩ := hnomore
  exact ⟨hidle, ⟨hoffers, forall_inputs_latch hnone⟩, hill⟩

/-- A final block only takes its inputs, and it stays final. -/
theorem run_of_final (n : Nat) (h : s.Final) (hnone : s.NoResetToCome) :
    ∃ es rest, Host.Core.run Sys2Proof.core n s = .next (s.taking es rest) ∧ (s.taking es rest).Final := by
  have hstep (u v : State) : (u.Final ∧ u.NoResetToCome ∧ ∃ es rest, u = s.taking es rest) → step u = .next v →
      v.Final ∧ v.NoResetToCome ∧ ∃ es rest, v = s.taking es rest := by
    rintro ⟨hfinal, hnone, es, rest, hu⟩ huv
    cases (step_of_final hfinal hnone).symm.trans huv
    refine ⟨final_latch hfinal, noResetToCome_of_step huv hnone, es ++ [u.edge], u.inputs.tail, ?_⟩
    rw [latch_eq_taking, ← taking_taking s es _ rest, ← hu]
  obtain ⟨t, hrun⟩ := everyRunGoesOn n s
  obtain ⟨hfinal, -, es, rest, rfl⟩ := run_induction hstep n s t ⟨h, hnone, [], s.inputs, (taking_nil s).symm⟩ hrun
  exact ⟨es, rest, hrun, hfinal⟩

end Final

/-- Settles O47: taking inputs writes no register and no byte. -/
theorem aFinalStateStaysFinal : Obligations.AFinalStateStaysFinal := by
  intro n s h hnone
  obtain ⟨es, rest, hrun, hfinal⟩ := run_of_final n h hnone
  exact ⟨_, hrun, hfinal, ⟨rfl, rfl⟩, rfl, ⟨rfl, rfl, rfl⟩, fun _ => rfl⟩

/-! ### Reads during an operation (R60, R196) -/

section Reads

variable {s t : State}

theorem mem_pixelDuring (h : step s = .next t) (i : Nat) (p : Pixel) :
    p ∈ s.pixelDuring i ↔ p = s.pixelAt i ∨ p = t.pixelAt i := by
  simp [State.pixelDuring, after_of_step h]

theorem pixelAt_of_sameBytes (h : s.SameBytes t) (i : Nat) : t.pixelAt i = s.pixelAt i := by
  rw [pixelAt_eq_append, pixelAt_eq_append, h, h]

theorem svWord_of_sameSatVal (h : s.SameSatVal t) : t.svWord = s.svWord := by
  obtain ⟨hsat, hval⟩ := h
  rw [State.svWord, State.svWord, hsat, hval]

theorem resWord_of_res_eq (h : t.res = s.res) : t.resWord = s.resWord := by
  rw [State.resWord, State.resWord, h]

/-- A register other than STATUS that a step keeps reads during it as before it. -/
theorem eq_rdData_of_mem_rdDataDuring (h : step s = .next t) {a : BitVec 2} (ha : a ≠ 0)
    (hkept : t.rdData a = s.rdData a) {w : Word} (hw : w ∈ s.rdDataDuring a) : w = s.rdData a := by
  rwa [mem_rdDataDuring h ha, hkept, or_self] at hw

end Reads

/-- Settles O52: the reads are of the states before and after the edge, and these agree where no writer of R27, R28 or
R51 is at work. -/
theorem readsDuringAnOperationAreOldOrNew : Obligations.ReadsDuringAnOperationAreOldOrNew := by
  intro s t h hr
  obtain ⟨hsatVal, hres, -⟩ := onlyTheNamedWritersWriteRegisters s t h hr
  refine ⟨fun a w ha => mem_rdDataDuring h ?_ w, mem_pixelDuring h, fun hnone i p hp => ?_, fun hconv w hw => ?_,
    fun hkeys w hw => ?_⟩
  · obtain rfl | rfl := ha <;> decide
  · rwa [mem_pixelDuring h, pixelAt_of_sameBytes (sameBytes_of_no_access h hr hnone), or_self] at hp
  · have hkept : t.res = s.res := by
      by_contra hdiff
      obtain ⟨c, sv, v, hc⟩ := hres hdiff
      exact hconv c sv v hc
    exact eq_rdData_of_mem_rdDataDuring (a := 2) h (by decide) (resWord_of_res_eq hkept) hw
  · have hkept : s.SameSatVal t := by
      by_contra hdiff
      obtain ⟨k, hk⟩ := hsatVal hdiff
      obtain ⟨hnotKeys, hnotFrame⟩ := hkeys k
      exact hk.elim hnotKeys hnotFrame
    exact eq_rdData_of_mem_rdDataDuring (a := 1) h (by decide) (svWord_of_sameSatVal hkept) hw

end Sys2Proof.Machine
